-- ==== Sys2Proof/Word.lean ====
section
/-! DEFINITION. The word and the bit fields of an instruction (spec 00_scope.md R7, R9, R10, R13). -/

namespace Sys2Proof

/-- R7 `WORD_BITS`, R13 "Word": the 16-bit unsigned unit of memory, registers and instructions. -/
abbrev Word := BitVec 16

/-- R7 `REG_INDEX_BITS`: a 3-bit register index, always in 0..7 (R25). -/
abbrev RegIdx := BitVec 3

/-- The 4-bit field operand2 (R61): an immediate, a register index 0..15, or a memory address. -/
abbrev Operand2 := BitVec 4

/-- R26 (92_eei_decisions.md D1): the program counter's 10 bits. -/
abbrev Pc := BitVec 10

end Sys2Proof
end

