-- ==== Sys2Proof/Config.lean ====
section
/-! DEFINITION. The fixed parameters of the CORE (spec 00_scope.md R7, R8) and its open ones. -/

namespace Sys2Proof.Config

/-- R7, R8 `MEM_WORDS`: memory indices are 0..511. -/
abbrev memWords : Nat := 512

/-- R7 `NUM_REGS`: register indices are 0..7. -/
abbrev numRegs : Nat := 8

/-- R7 `EMPTY`: the sentinel, and what every memory slot holds after reset (R34). -/
abbrev emptyWord : Word := 0xFFFF#16

/-- The two values of the parameter `alu_check_order` (R83, 92_eei_decisions.md D4). -/
inductive AluCheckOrder where
  | operandFirst
  | opcodeFirst
  deriving DecidableEq, Repr, Inhabited

/-- The OPEN parameter `alu_check_order` of R7, R83 and R156: which error an ALU word reports that fails
both ALU checks. It has no value here, so no proof can rest on one (assumption 1). -/
opaque aluCheckOrder : AluCheckOrder

/-- FREE VALUE (assumption 9). R183 puts the 1-based number of the offending data entry into the 16-bit
`halt_info`; for an entry number of 65536 or more, which does not fit, the spec states no value. -/
opaque entryNumberTooWide : Nat → Word

end Sys2Proof.Config

namespace Sys2Proof

/-- A memory address: 0..511 (R21, R40). An access primitive takes an `Addr`, so the precondition
`addr < 512` of R41 and R42 is established by whoever makes the `Addr`. -/
abbrev Addr := Fin Config.memWords

/-- The bound check that R41 and R42 ask of every caller: the address, if it lies in memory. -/
def addrOf? (n : Nat) : Option Addr :=
  if h : n < Config.memWords then some ⟨n, h⟩ else none

end Sys2Proof
end

