-- ==== Sys2Proof/Syntax.lean ====
section
/-! DEFINITION. The instructions (one constructor per row of spec/opcode_table.json), the six fields of a
word (30_encoding.md R61) and the assembler's lines (R73, R74). -/

namespace Sys2Proof

/-- The six fields of a word (R61, R75), bit 15 first. -/
structure Fields where
  tBit     : BitVec 1
  opcode   : BitVec 4
  iBit     : BitVec 1
  operand1 : RegIdx
  operand2 : Operand2
  operand3 : RegIdx
  deriving DecidableEq, Repr

/-- One constructor per row of the opcode table (R69), operands in field order. In a register form `ra` is the
whole 4-bit operand2: 8..15 is a legal encoding that faults when executed (R68, R70). LOAD and STORE keep
the bits they ignore (`i` is bit 10, `o3` bits 2:0; R66, 93_implementation_defined.md row 1), so no bit of
a word is lost (R63). -/
inductive Instr where
  | add   (rd : RegIdx) (ra : Operand2) (rb : RegIdx)
  | addi  (rd : RegIdx) (n : Operand2) (rb : RegIdx)
  | sub   (rd : RegIdx) (ra : Operand2) (rb : RegIdx)
  | subi  (rd : RegIdx) (n : Operand2) (rb : RegIdx)
  | and   (rd : RegIdx) (ra : Operand2) (rb : RegIdx)
  | andi  (rd : RegIdx) (n : Operand2) (rb : RegIdx)
  | or    (rd : RegIdx) (ra : Operand2) (rb : RegIdx)
  | ori   (rd : RegIdx) (n : Operand2) (rb : RegIdx)
  | xor   (rd : RegIdx) (ra : Operand2) (rb : RegIdx)
  | xori  (rd : RegIdx) (n : Operand2) (rb : RegIdx)
  | load  (i : BitVec 1) (rd : RegIdx) (a : Operand2) (o3 : BitVec 3)
  | store (i : BitVec 1) (rs : RegIdx) (a : Operand2) (o3 : BitVec 3)
  | halt
  deriving DecidableEq, Repr

/-- The five operations of the ALU (R65, R80). -/
inductive AluOp where
  | add | sub | and | or | xor
  deriving DecidableEq, Repr

/-- The words that are no instruction (R70): the fields say which, and the execution unit that `t_bit` selects
reports the error (R62, R83, R113). -/
inductive DecodeReject where
  /-- `t_bit = 0` and opcode 5..15. -/
  | aluOpcode (f : Fields)
  /-- `t_bit = 1`, opcode not 5 or 6, and the word is not 0xFFFF. -/
  | dtOpcode (f : Fields)
  deriving DecidableEq, Repr

/-- A line of the assembler syntax of R73, and the pseudo-instructions of R74. -/
inductive AsmLine where
  /-- `OP rD, rA, rB` -/
  | register (op : AluOp) (d a b : RegIdx)
  /-- `OPI rD, #n, rB` -/
  | immediate (op : AluOp) (d : RegIdx) (n : Operand2) (b : RegIdx)
  /-- `LOAD rD, [a]` -/
  | load (d : RegIdx) (a : Operand2)
  /-- `STORE rS, [a]` -/
  | store (s : RegIdx) (a : Operand2)
  /-- `.word 0xHHHH` -/
  | word (w : Word)
  /-- `HALT` -/
  | halt
  /-- `NOP` -/
  | nop
  /-- `MOV rD, rS` -/
  | mov (d s : RegIdx)
  /-- `CLR rD` -/
  | clr (d : RegIdx)
  /-- `LI rD, #n` -/
  | li (d : RegIdx) (n : Operand2)
  deriving DecidableEq, Repr

end Sys2Proof
end

