-- ==== Sys2Proof/WellFormed.lean ====
section
/-! DEFINITION. The check an instruction can fail (spec 30_encoding.md R68, 10_state.md R25): a register
form's operand2 must name a register that exists. Every other operand is a field of exactly the width
of what it names, so it has no check to fail. -/

namespace Sys2Proof

/-- R25, R68: the first operand of a register form names one of r0..r7, that is bit 6 of the word is 0. -/
def registerExists (ra : Operand2) : Bool := decide (ra.toNat ≤ 7)

/-- The well-formedness check, one arm per instruction. An instruction that fails it is still decoded and
executed: it is the class of R72 that "executes to `ERR_REG_OPERAND`". -/
def Instr.wellFormed : Instr → Bool
  | .add _ ra _      => registerExists ra
  | .addi _ _ _      => true
  | .sub _ ra _      => registerExists ra
  | .subi _ _ _      => true
  | .and _ ra _      => registerExists ra
  | .andi _ _ _      => true
  | .or _ ra _       => registerExists ra
  | .ori _ _ _       => true
  | .xor _ ra _      => registerExists ra
  | .xori _ _ _      => true
  | .load _ _ _ _    => true
  | .store _ _ _ _   => true
  | .halt            => true

/-- The instruction passes the check. -/
abbrev WellFormed (i : Instr) : Prop := i.wellFormed = true

end Sys2Proof
end

