-- ==== Sys2Proof/Decode.lean ====
section
/-! DEFINITION. From a word to its fields and its instruction, and back (spec 30_encoding.md R60 to R75), the
opcode table as data (R69), and the assembler (R73, R74). -/

namespace Sys2Proof

/-- `Decode(w)` of R62, with the bit positions of R61; it also is the decoder block of R75. -/
def splitFields (w : Word) : Fields where
  tBit     := w.extractLsb' 15 1
  opcode   := w.extractLsb' 11 4
  iBit     := w.extractLsb' 10 1
  operand1 := w.extractLsb' 7 3
  operand2 := w.extractLsb' 3 4
  operand3 := w.extractLsb' 0 3

/-- `Encode(f)` of R63. -/
def joinFields (f : Fields) : Word :=
  f.tBit ++ f.opcode ++ f.iBit ++ f.operand1 ++ f.operand2 ++ f.operand3

/-- R65, R69: the instruction of an ALU-form word; none for opcodes 5..15. -/
def aluInstr? (f : Fields) : Option Instr :=
  match f.opcode, f.iBit with
  | 0#4, 0#1 => some (.add f.operand1 f.operand2 f.operand3)
  | 0#4, 1#1 => some (.addi f.operand1 f.operand2 f.operand3)
  | 1#4, 0#1 => some (.sub f.operand1 f.operand2 f.operand3)
  | 1#4, 1#1 => some (.subi f.operand1 f.operand2 f.operand3)
  | 2#4, 0#1 => some (.and f.operand1 f.operand2 f.operand3)
  | 2#4, 1#1 => some (.andi f.operand1 f.operand2 f.operand3)
  | 3#4, 0#1 => some (.or f.operand1 f.operand2 f.operand3)
  | 3#4, 1#1 => some (.ori f.operand1 f.operand2 f.operand3)
  | 4#4, 0#1 => some (.xor f.operand1 f.operand2 f.operand3)
  | 4#4, 1#1 => some (.xori f.operand1 f.operand2 f.operand3)
  | _, _     => none

/-- R66, R69: the instruction of a Data-Transfer word; none for an opcode other than 5 and 6. -/
def dtInstr? (f : Fields) : Option Instr :=
  match f.opcode with
  | 5#4 => some (.load f.iBit f.operand1 f.operand2 f.operand3)
  | 6#4 => some (.store f.iBit f.operand1 f.operand2 f.operand3)
  | _   => none

/-- R64: `t_bit` alone selects the form; R70: an opcode that does not belong to it is rejected. -/
def decodeFields (f : Fields) : Except DecodeReject Instr :=
  if f.tBit = 0#1 then
    match aluInstr? f with
    | some i => .ok i
    | none   => .error (.aluOpcode f)
  else
    match dtInstr? f with
    | some i => .ok i
    | none   => .error (.dtOpcode f)

/-- The decoder: total on every word. The sentinel's row is tested first (R71, R132; opcode_table.json HALT). -/
def decode (w : Word) : Except DecodeReject Instr :=
  if w = Config.emptyWord then .ok .halt else decodeFields (splitFields w)

/-- The fields of an instruction's word (R69); HALT's are those R71 lists. -/
def instrFields : Instr → Fields
  | .add rd ra rb     => ⟨0, 0, 0, rd, ra, rb⟩
  | .addi rd n rb     => ⟨0, 0, 1, rd, n, rb⟩
  | .sub rd ra rb     => ⟨0, 1, 0, rd, ra, rb⟩
  | .subi rd n rb     => ⟨0, 1, 1, rd, n, rb⟩
  | .and rd ra rb     => ⟨0, 2, 0, rd, ra, rb⟩
  | .andi rd n rb     => ⟨0, 2, 1, rd, n, rb⟩
  | .or rd ra rb      => ⟨0, 3, 0, rd, ra, rb⟩
  | .ori rd n rb      => ⟨0, 3, 1, rd, n, rb⟩
  | .xor rd ra rb     => ⟨0, 4, 0, rd, ra, rb⟩
  | .xori rd n rb     => ⟨0, 4, 1, rd, n, rb⟩
  | .load i rd a o3   => ⟨1, 5, i, rd, a, o3⟩
  | .store i rs a o3  => ⟨1, 6, i, rs, a, o3⟩
  | .halt             => ⟨1, 15, 1, 7, 15, 7⟩

/-- The word of an instruction. -/
def encode (i : Instr) : Word := joinFields (instrFields i)

/-- One row of the opcode table: a word is this row's when `w &&& mask = bits`. -/
structure OpcodeRow where
  mnemonic : String
  bits     : Word
  mask     : Word
  deriving DecidableEq, Repr

/-- Does the word belong to the row? -/
def OpcodeRow.selects (r : OpcodeRow) (w : Word) : Bool := w &&& r.mask == r.bits

/-- spec/opcode_table.json and R69, row by row. -/
def opcodeTable : List OpcodeRow :=
  [⟨"ADD", 0x0000, 0xFC00⟩, ⟨"ADDI", 0x0400, 0xFC00⟩,
   ⟨"SUB", 0x0800, 0xFC00⟩, ⟨"SUBI", 0x0C00, 0xFC00⟩,
   ⟨"AND", 0x1000, 0xFC00⟩, ⟨"ANDI", 0x1400, 0xFC00⟩,
   ⟨"OR", 0x1800, 0xFC00⟩, ⟨"ORI", 0x1C00, 0xFC00⟩,
   ⟨"XOR", 0x2000, 0xFC00⟩, ⟨"XORI", 0x2400, 0xFC00⟩,
   ⟨"LOAD", 0xA800, 0xF800⟩, ⟨"STORE", 0xB000, 0xF800⟩,
   ⟨"HALT", 0xFFFF, 0xFFFF⟩]

/-- An instruction's mnemonic in the opcode table. -/
def Instr.mnemonic : Instr → String
  | .add _ _ _     => "ADD"
  | .addi _ _ _    => "ADDI"
  | .sub _ _ _     => "SUB"
  | .subi _ _ _    => "SUBI"
  | .and _ _ _     => "AND"
  | .andi _ _ _    => "ANDI"
  | .or _ _ _      => "OR"
  | .ori _ _ _     => "ORI"
  | .xor _ _ _     => "XOR"
  | .xori _ _ _    => "XORI"
  | .load _ _ _ _  => "LOAD"
  | .store _ _ _ _ => "STORE"
  | .halt          => "HALT"

/-- A word given as the opcode table numbers its bits: the bits above `nbits` are 0. -/
def tableWord (nbits w : Nat) : Word := BitVec.ofNat 16 (w % 2 ^ nbits)

/-- What the decoder reads from a table word; none where it rejects the word. -/
def decodeTableWord (nbits w : Nat) : Option Instr :=
  match decode (tableWord nbits w) with
  | .ok i    => some i
  | .error _ => none

/-- The register form of an ALU operation (R69). -/
def AluOp.registerInstr : AluOp → RegIdx → Operand2 → RegIdx → Instr
  | .add => .add
  | .sub => .sub
  | .and => .and
  | .or  => .or
  | .xor => .xor

/-- The immediate form of an ALU operation (R69). -/
def AluOp.immediateInstr : AluOp → RegIdx → Operand2 → RegIdx → Instr
  | .add => .addi
  | .sub => .subi
  | .and => .andi
  | .or  => .ori
  | .xor => .xori

/-- The words an assembler line stands for (R73, R74; 92_eei_decisions.md D8). The assembler fills the ignored
bits of LOAD and STORE with 0, and cannot spell a register operand above r7. -/
def assemble : AsmLine → List Word
  | .register op d a b  => [encode (op.registerInstr d (a.setWidth 4) b)]
  | .immediate op d n b => [encode (op.immediateInstr d n b)]
  | .load d a           => [encode (.load 0 d a 0)]
  | .store s a          => [encode (.store 0 s a 0)]
  | .word w             => [w]
  | .halt               => [Config.emptyWord]
  | .nop                => [encode (.or 0 0 0)]
  | .mov d s            => [encode (.or d (s.setWidth 4) s)]
  | .clr d              => [encode (.xor d (d.setWidth 4) d)]
  | .li d n             => [encode (.xor d (d.setWidth 4) d), encode (.ori d n d)]

end Sys2Proof
end

