-- ==== Sys2Proof/Machine/State.lean ====
section
/-! DEFINITION. The state of the CORE, whole (spec 10_state.md R20 to R34), its value after reset, and the
reasons a step can stop. Nothing else is state (R20): no flag (R28), no mode, no interrupt, timer, cache or
reservation state (R31), and no decode latch (R32). -/

namespace Sys2Proof.Machine

/-- The state of the fetch-execute loop (R29). -/
inductive RunState where
  | load
  | running
  | haltedNormal
  | haltedError
  deriving DecidableEq, Repr

/-- The halt reasons, one per code of R151. Codes 10..15 are never produced (93_implementation_defined.md row 10). -/
inductive HaltReason where
  | none
  | haltSentinel
  | haltEndOfMemory
  | errSourceMissing
  | errLoadAddress
  | errProgramTooLong
  | errRegOperand
  | errAluOpcode
  | errMemAddress
  | errDtOpcode
  deriving DecidableEq, Repr

/-- The 512 words of memory (R21, R40), as the list of the slots that do not hold EMPTY: address and word,
addresses strictly rising. A slot that is not listed holds EMPTY, 0xFFFF (R22, R34). A cell is one WORD, because
a byte cannot be addressed (R40, R45; assumption 2). -/
abbrev Memory := List (Nat × Word)

/-- The complete state of R20. -/
structure State where
  /-- R21: the 512 words. -/
  memory     : Memory
  /-- R23: `x`, the registers r0..r7; none is hardwired. -/
  regs       : Vector Word Config.numRegs
  /-- R26: the program counter. -/
  pc         : Pc
  /-- R29. -/
  runState   : RunState
  /-- R30: the halt record's reason. -/
  haltReason : HaltReason
  /-- R30: the halt record's info. -/
  haltInfo   : Word
  deriving DecidableEq, Repr

/-- Why `step` does not step: the CORE has no step in these run states (R130). No instruction raises either one, and
both are safe (assumption 3): the state stays as it is, for the host to act on. -/
inductive Fault where
  /-- Raised by `step` in LOAD: the loop does not step, it waits for the host's start (R130). Safe. -/
  | awaitingStart
  /-- Raised by `step` in HALTED_NORMAL and HALTED_ERROR: "a halted CORE has no step" (R130, R155). Safe. -/
  | halted
  deriving DecidableEq, Repr

/-- Instructions without a meaning. Every instruction of the table has one, so nothing raises this. -/
inductive Refusal where
  /-- An arm of `exec` that has no meaning yet would answer this with its mnemonic. Safe. -/
  | notModelled (mnemonic : String)
  deriving DecidableEq, Repr

/-- What a step and a meaning answer. -/
abbrev Result := Host.Outcome State Fault Refusal

/-- R34, R180: every piece of state at its reset value. -/
def State.reset : State where
  memory     := []
  regs       := Vector.replicate Config.numRegs 0#16
  pc         := 0#10
  runState   := .load
  haltReason := .none
  haltInfo   := 0#16

end Sys2Proof.Machine
end

