-- ==== Sys2Proof/Machine/Ops.lean ====
section
/-! DEFINITION. The shared operations over memory (spec 20_memory.md), the register file (10_state.md R23), the
program counter (R26) and the halt record (60_exceptions.md R153, 43_sequencer.md R135). -/

namespace Sys2Proof.Machine

/-! ### Memory -/

/-- Is the list in its one form from address `lo` on: addresses strictly rising and below 512, no EMPTY listed? -/
def Memory.wfFrom : Nat → Memory → Bool
  | _, []           => true
  | lo, (a, w) :: m => decide (lo ≤ a) && decide (a < Config.memWords) && w != Config.emptyWord && Memory.wfFrom (a + 1) m

/-- The canonical form of a memory. Equal memories are equal lists. -/
def Memory.wf (m : Memory) : Bool := Memory.wfFrom 0 m

/-- The word at an address; an unlisted address holds EMPTY (R22, R34). -/
def Memory.read : Memory → Nat → Word
  | [], _          => Config.emptyWord
  | (b, w) :: m, a => if b = a then w else Memory.read m a

/-- The memory with the slot at `a` EMPTY. -/
def Memory.clear (m : Memory) (a : Nat) : Memory := m.filter fun c => c.1 != a

/-- Put a cell at its place in a memory that does not list its address. -/
def Memory.insert : Memory → Nat → Word → Memory
  | [], a, v          => [(a, v)]
  | (b, w) :: m, a, v => if a < b then (a, v) :: (b, w) :: m else (b, w) :: Memory.insert m a v

/-- The memory with `v` at `a` and every other slot as before (R42). Writing EMPTY leaves the slot unlisted, so a slot
that was written with 0xFFFF cannot be told from one never written (R22). -/
def Memory.write (m : Memory) (a : Nat) (v : Word) : Memory :=
  if v = Config.emptyWord then m.clear a else (m.clear a).insert a v

/-- `MemRead(addr, 1)` of R41. -/
def State.memRead (s : State) (a : Addr) : Word := s.memory.read a.val

/-- `MemWrite(addr, 1, v)` of R42. -/
def State.memWrite (s : State) (a : Addr) (v : Word) : State := { s with memory := s.memory.write a.val v }

/-- The sentinel comparator of R44. Only instruction fetch applies it. -/
def isEmpty (w : Word) : Bool := w == Config.emptyWord

/-! ### Registers -/

/-- `x[i]` of R11: reads general register `i`. -/
def State.readReg (s : State) (i : RegIdx) : Word := s.regs[i.toNat]'i.isLt

/-- `x[i] <- v` of R11. No register is hardwired (R23). -/
def State.writeReg (s : State) (i : RegIdx) (v : Word) : State := { s with regs := s.regs.set i.toNat v i.isLt }

/-! ### Program counter and halt record -/

/-- The PC as a 16-bit word, the width of `halt_info`. -/
def State.pcWord (s : State) : Word := s.pc.setWidth 16

/-- R133: `pc <- pc + 1`, before execution. -/
def State.advancePc (s : State) : State := { s with pc := s.pc + 1#10 }

/-- `raise Kind(info)` of R153, the CORE's only exception entry: HALTED_ERROR, the reason and the info; nothing else
changes. There is no handler and no return from it (R150, R155). -/
def State.raise (s : State) (kind : HaltReason) (info : Word) : State :=
  { s with runState := .haltedError, haltReason := kind, haltInfo := info }

/-- `halt_normal(reason, info)` of R135. -/
def State.haltNormal (s : State) (reason : HaltReason) (info : Word) : State :=
  { s with runState := .haltedNormal, haltReason := reason, haltInfo := info }

end Sys2Proof.Machine
end

