-- ==== Sys2Proof/Machine/Flags.lean ====
section
/-! DEFINITION. The flag computations of the spec: there are none. "The CORE has no status flags and no condition
codes: no carry, no overflow, no zero and no sign flag" (10_state.md R28), and every instruction's rule says
"Flags: none" (R86 to R95, R114, R115), so this file defines nothing. -/
end

