-- ==== Sys2Proof/Machine/Operands.lean ====
section
/-! DEFINITION. Every operand form of an instruction (spec 30_encoding.md R65 to R68, 41_alu.md R81, R82,
42_data_transfer.md R111). -/

namespace Sys2Proof.Machine

/-- R67: the 4-bit immediate zero-extended, 0..15 (92_eei_decisions.md D2, assumption 4). -/
def immediateOperand (n : Operand2) : Word := n.setWidth 16

/-- R68, R82: the register that operand2 names, if there is one; none for 8..15. -/
def registerOperand? (s : State) (ra : Operand2) : Option Word :=
  if ra.toNat ≤ 7 then some (s.readReg (ra.setWidth 3)) else none

/-- R81: the second operand is `x[operand3]` in both forms. -/
def secondOperand (s : State) (rb : RegIdx) : Word := s.readReg rb

/-- R111: the address of a Data-Transfer instruction, the whole of operand2 zero-extended. -/
def dtAddress (a : Operand2) : Word := a.setWidth 16

end Sys2Proof.Machine
end

