-- ==== Sys2Proof/Machine/Alu.lean ====
section
/-! DEFINITION. The ten instructions of the Arithmetic-Logical Unit and its illegal opcodes (spec 41_alu.md).
A meaning takes the state in which its word was fetched: `pc` is the fetch address `fa`, and the meaning begins
with the advance to `fa + 1` of 43_sequencer.md R133 (assumption 5). -/

namespace Sys2Proof.Machine

/-- The result of an ALU operation (R85): ADD and SUB modulo 2^16 (R96), the others bit by bit. The order
of a difference is first minus second (92_eei_decisions.md D3, assumption 4). -/
def aluResult (op : AluOp) (first second : Word) : Word :=
  match op with
  | .add => first + second
  | .sub => first - second
  | .and => first &&& second
  | .or  => first ||| second
  | .xor => first ^^^ second

/-- R84: the result goes to `x[operand1]` and to nothing else. -/
def aluWrite (op : AluOp) (rd : RegIdx) (first second : Word) (s : State) : State :=
  s.writeReg rd (aluResult op first second)

/-- The register form (R82, R85). Operand2 above 7 raises ERR_REG_OPERAND at the fetch address and writes nothing. -/
def aluRegisterForm (op : AluOp) (rd : RegIdx) (ra : Operand2) (rb : RegIdx) (s : State) : Result :=
  let s1 := s.advancePc
  match registerOperand? s1 ra with
  | some first => .next (aluWrite op rd first (secondOperand s1 rb) s1)
  | none       => .next (s1.raise .errRegOperand s.pcWord)

/-- The immediate form (R67, R82, R85): it raises no error (R152). -/
def aluImmediateForm (op : AluOp) (rd : RegIdx) (n : Operand2) (rb : RegIdx) (s : State) : Result :=
  let s1 := s.advancePc
  .next (aluWrite op rd (immediateOperand n) (secondOperand s1 rb) s1)

/-- R86. -/
def execAdd (rd : RegIdx) (ra : Operand2) (rb : RegIdx) (s : State) : Result := aluRegisterForm .add rd ra rb s

/-- R87. -/
def execAddi (rd : RegIdx) (n : Operand2) (rb : RegIdx) (s : State) : Result := aluImmediateForm .add rd n rb s

/-- R88. -/
def execSub (rd : RegIdx) (ra : Operand2) (rb : RegIdx) (s : State) : Result := aluRegisterForm .sub rd ra rb s

/-- R89: immediate minus register. -/
def execSubi (rd : RegIdx) (n : Operand2) (rb : RegIdx) (s : State) : Result := aluImmediateForm .sub rd n rb s

/-- R90. -/
def execAnd (rd : RegIdx) (ra : Operand2) (rb : RegIdx) (s : State) : Result := aluRegisterForm .and rd ra rb s

/-- R91. -/
def execAndi (rd : RegIdx) (n : Operand2) (rb : RegIdx) (s : State) : Result := aluImmediateForm .and rd n rb s

/-- R92. -/
def execOr (rd : RegIdx) (ra : Operand2) (rb : RegIdx) (s : State) : Result := aluRegisterForm .or rd ra rb s

/-- R93. -/
def execOri (rd : RegIdx) (n : Operand2) (rb : RegIdx) (s : State) : Result := aluImmediateForm .or rd n rb s

/-- R94. -/
def execXor (rd : RegIdx) (ra : Operand2) (rb : RegIdx) (s : State) : Result := aluRegisterForm .xor rd ra rb s

/-- R95. -/
def execXori (rd : RegIdx) (n : Operand2) (rb : RegIdx) (s : State) : Result := aluImmediateForm .xor rd n rb s

/-- R83, R156: which error a word with `t_bit = 0` and opcode 5..15 reports. Where the register-form operand check
fails too, the parameter `alu_check_order` decides. -/
def illegalAluReason (order : Config.AluCheckOrder) (f : Fields) : HaltReason :=
  match order with
  | .operandFirst => if f.iBit = 0#1 ∧ 7 < f.operand2.toNat then .errRegOperand else .errAluOpcode
  | .opcodeFirst  => .errAluOpcode

/-- R83: the ALU's answer to an opcode that is not its own. -/
def illegalAlu (order : Config.AluCheckOrder) (f : Fields) (s : State) : Result :=
  .next (s.advancePc.raise (illegalAluReason order f) s.pcWord)

end Sys2Proof.Machine
end

