-- ==== Sys2Proof/Machine/DataTransfer.lean ====
section
/-! DEFINITION. The Data-Transfer Unit: LOAD, STORE and its illegal opcodes (spec 42_data_transfer.md). As in
Machine/Alu.lean, a meaning takes the state in which its word was fetched. -/

namespace Sys2Proof.Machine

/-- R111, R112: the unit's address, checked against the bound, and then what the opcode does with it. The check never
fails, because the address is at most 15; it is kept as the spec's assertion (92_eei_decisions.md D21). -/
def dtAccess (a : Operand2) (s : State) (effect : Addr → State → State) : Result :=
  let s1 := s.advancePc
  match addrOf? (dtAddress a).toNat with
  | some address => .next (effect address s1)
  | none         => .next (s1.raise .errMemAddress s.pcWord)

/-- R114. Bits 10 and 2:0 are ignored (R66, 92_eei_decisions.md D13, assumption 4). -/
def execLoad (_i : BitVec 1) (rd : RegIdx) (a : Operand2) (_o3 : BitVec 3) (s : State) : Result :=
  dtAccess a s fun address s1 => s1.writeReg rd (s1.memRead address)

/-- R115: operand1 is the source (90_conflicts.md C2). -/
def execStore (_i : BitVec 1) (rs : RegIdx) (a : Operand2) (_o3 : BitVec 3) (s : State) : Result :=
  dtAccess a s fun address s1 => s1.memWrite address (s1.readReg rs)

/-- R113: the unit's answer to an opcode that is not its own, after the bounds check. -/
def illegalDt (f : Fields) (s : State) : Result :=
  dtAccess f.operand2 s fun _ s1 => s1.raise .errDtOpcode s.pcWord

end Sys2Proof.Machine
end

