-- ==== Sys2Proof/Machine/Sequencer.lean ====
section
/-! DEFINITION. The parts of the fetch-execute step that are not an execution unit's (spec 43_sequencer.md): when
the loop steps, the fetch, the two normal halts, and the words that are no instruction. -/

namespace Sys2Proof.Machine

/-- R130: the loop steps only while RUNNING; in the other run states the CORE has no step. -/
def noStep? (s : State) : Option Fault :=
  match s.runState with
  | .load         => some .awaitingStart
  | .running      => none
  | .haltedNormal => some .halted
  | .haltedError  => some .halted

/-- R131, R132: the word at the PC; none where `pc >= 512`, and then no memory read takes place. -/
def fetch (s : State) : Option Word := (addrOf? s.pc.toNat).map s.memRead

/-- R131: the run halts normally at the end of memory; `pc` stays. -/
def endOfMemory (s : State) : Result := .next (s.haltNormal .haltEndOfMemory s.pcWord)

/-- R132: HALT, the sentinel. It halts the run normally; `pc` is not incremented and keeps the sentinel's address. -/
def execHalt (s : State) : Result := .next (s.haltNormal .haltSentinel s.pcWord)

/-- R134: a word that is no instruction is dispatched by its `t_bit` and raises its unit's error. -/
def illegalWord (r : DecodeReject) (s : State) : Result :=
  match r with
  | .aluOpcode f => illegalAlu Config.aluCheckOrder f s
  | .dtOpcode f  => illegalDt f s

/-- Where the next fetch takes place when the machine is to run one given word: at the PC, or at address 0, where
execution begins (R49), if the PC is at the end of memory. -/
def fetchPlace (s : State) : Addr := (addrOf? s.pc.toNat).getD 0

/-- The state with `w` stored where the next step fetches, and the loop RUNNING (assumption 6). -/
def placeAtFetch (w : Word) (s : State) : State :=
  { s.memWrite (fetchPlace s) w with pc := BitVec.ofNat 10 (fetchPlace s).val, runState := .running }

end Sys2Proof.Machine
end

