-- ==== Sys2Proof/Machine/Dispatch.lean ====
section
/-! DEFINITION. One arm per instruction: its meaning. -/

namespace Sys2Proof.Machine

/-- The meaning of an instruction in the state in which its word was fetched (spec 43_sequencer.md R134). -/
def exec (i : Instr) (s : State) : Host.Outcome State Fault Refusal :=
  match i with
  | .add rd ra rb => Sys2Proof.Machine.execAdd rd ra rb s
  | .addi rd n rb => Sys2Proof.Machine.execAddi rd n rb s
  | .sub rd ra rb => Sys2Proof.Machine.execSub rd ra rb s
  | .subi rd n rb => Sys2Proof.Machine.execSubi rd n rb s
  | .and rd ra rb => Sys2Proof.Machine.execAnd rd ra rb s
  | .andi rd n rb => Sys2Proof.Machine.execAndi rd n rb s
  | .or rd ra rb => Sys2Proof.Machine.execOr rd ra rb s
  | .ori rd n rb => Sys2Proof.Machine.execOri rd n rb s
  | .xor rd ra rb => Sys2Proof.Machine.execXor rd ra rb s
  | .xori rd n rb => Sys2Proof.Machine.execXori rd n rb s
  | .load b rd a o3 => Sys2Proof.Machine.execLoad b rd a o3 s
  | .store b rs a o3 => Sys2Proof.Machine.execStore b rs a o3 s
  | .halt => Sys2Proof.Machine.execHalt s

end Sys2Proof.Machine
end

