-- ==== Sys2Proof/Machine/Step.lean ====
section
/-! DEFINITION. One step of the fetch-execute loop (spec 43_sequencer.md R130 to R135). -/

namespace Sys2Proof.Machine

/-- R135: no step unless RUNNING; the end of memory; else fetch, decode and execute. The sentinel decodes to HALT,
whose meaning alone does not advance the PC (R132). -/
def step (s : State) : Host.Outcome State Fault Refusal :=
  match noStep? s with
  | some f => .fault f
  | none =>
    match fetch s with
    | none   => endOfMemory s
    | some w =>
      match decode w with
      | .ok i    => exec i s
      | .error r => illegalWord r s

/-- The state in which the next step fetches and runs the table word. It stands for the host's load of a program
(R181, R185), the only way a program comes to run from reset (assumption 6). -/
def State.withFetchWord (s : State) (nbits w : Nat) : State := placeAtFetch (tableWord nbits w) s

end Sys2Proof.Machine
end

