-- ==== Sys2Proof/Machine/Pseudocode.lean ====
section
/-! DEFINITION. The spec's own pseudocode, line by line: `ALU_Execute` (41_alu.md R85), `DT_Execute` (42_data_transfer.md
R113) and `Step` (43_sequencer.md R135), over the six raw fields. The step of Machine/Step.lean goes by
instruction instead; that the two agree is a statement of its own. A reader can hold this file beside the
spec without the instruction type in between. -/

namespace Sys2Proof.Machine

/-- The ALU block of R14: `opcode` and the two operands in, the result out, or no result where the opcode is not an
ALU operation (R83). -/
def aluBlock (opcode : BitVec 4) (first second : Word) : Option Word :=
  match opcode.toNat with
  | 0 => some (BitVec.ofNat 16 ((first.toNat + second.toNat) % 2 ^ 16))
  | 1 => some (BitVec.ofInt 16 (((first.toNat : Int) - (second.toNat : Int)) % 2 ^ 16))
  | 2 => some (first &&& second)
  | 3 => some (first ||| second)
  | 4 => some (first ^^^ second)
  | _ => none

/-- The end of `ALU_Execute` (R85), once both operands are read. -/
def aluFinish (f : Fields) (fa first second : Word) (s : State) : State :=
  match aluBlock f.opcode first second with
  | some result => s.writeReg f.operand1 result
  | none        => s.raise .errAluOpcode fa

/-- `ALU_Execute(f, fa)` of R85. -/
def aluExecute (order : Config.AluCheckOrder) (f : Fields) (fa : Word) (s : State) : State :=
  if order = .opcodeFirst ∧ 4 < f.opcode.toNat then s.raise .errAluOpcode fa
  else if f.iBit = 1#1 then aluFinish f fa (f.operand2.setWidth 16) (s.readReg f.operand3) s
  else if 7 < f.operand2.toNat then s.raise .errRegOperand fa
  else aluFinish f fa (s.readReg (f.operand2.setWidth 3)) (s.readReg f.operand3) s

/-- `DT_Execute(f, fa)` of R113. -/
def dtExecute (f : Fields) (fa : Word) (s : State) : State :=
  match addrOf? f.operand2.toNat with
  | none         => s.raise .errMemAddress fa
  | some address =>
    match f.opcode.toNat with
    | 5 => s.writeReg f.operand1 (s.memRead address)
    | 6 => s.memWrite address (s.readReg f.operand1)
    | _ => s.raise .errDtOpcode fa

/-- `Step()` of R135, for a state that is RUNNING. -/
def stepR135 (order : Config.AluCheckOrder) (s : State) : State :=
  match addrOf? s.pc.toNat with
  | none         => s.haltNormal .haltEndOfMemory s.pcWord
  | some address =>
    let w := s.memRead address
    if isEmpty w then s.haltNormal .haltSentinel s.pcWord
    else
      let fa := s.pcWord
      let s1 := s.advancePc
      let f := splitFields w
      if f.tBit = 0#1 then aluExecute order f fa s1 else dtExecute f fa s1

end Sys2Proof.Machine
end

