-- ==== Sys2Proof/Machine/HostPort.lean ====
section
/-! DEFINITION. The host port (spec 70_reset_and_hazards.md R180 to R190): the host's three actions, each atomic and
between steps, and what the host can observe. -/

namespace Sys2Proof.Machine

/-- The host's actions (R186). -/
inductive HostAction where
  | reset
  | loadAndStart (program : List Word) (data : List (Word × Word))
  | sourceMissing
  deriving DecidableEq, Repr

/-- The run states in which the CORE accepts an action (R186, 92_eei_decisions.md D10 and D22). -/
def HostAction.acceptedIn : HostAction → RunState → Bool
  | .reset, _            => true
  | .loadAndStart _ _, r => r == .load
  | .sourceMissing, r    => r == .load

/-- Program load from index `k` on (R181): one word per slot, in order. The first word without a slot fails the load
with ERR_PROGRAM_TOO_LONG and its 1-based number, 513 (R182, 92_eei_decisions.md D9); the words before it stay
written (R156, assumption 7). -/
def loadProgram : Nat → List Word → State → State
  | _, [], s      => s
  | k, w :: p, s  =>
    match addrOf? k with
    | some a => loadProgram (k + 1) p (s.memWrite a w)
    | none   => s.raise .errProgramTooLong (BitVec.ofNat 16 (k + 1))

/-- `halt_info` for the 1-based data entry number `j` (R183). A number that 16 bits cannot hold gives a free value
(assumption 9). -/
def entryInfo (j : Nat) : Word :=
  if j < 2 ^ 16 then BitVec.ofNat 16 j else Config.entryNumberTooWide j

/-- Data load from entry number `j` on (R183, R184): each pair in order overwrites `memory[address]`. The first
address of 512 or more fails the load; the pairs before it stay applied (92_eei_decisions.md D18). -/
def loadData : Nat → List (Word × Word) → State → State
  | _, [], s           => s
  | j, (a, v) :: d, s  =>
    match addrOf? a.toNat with
    | some addr => loadData (j + 1) d (s.memWrite addr v)
    | none      => s.raise .errLoadAddress (entryInfo j)

/-- R185: loading is complete when no load error ended it; then the loop is RUNNING. -/
def start (s : State) : State :=
  if s.runState = .load then { s with runState := .running } else s

/-- `load_and_start(P, D)` in LOAD (R181 to R186): the program, then the data unless the program failed, then start. -/
def loadAndStart (program : List Word) (data : List (Word × Word)) (s : State) : State :=
  let s1 := loadProgram 0 program s
  if s1.runState = .load then start (loadData 1 data s1) else s1

/-- `source_missing()` in LOAD (R186, 92_eei_decisions.md D20). -/
def sourceMissing (s : State) : State := s.raise .errSourceMissing 0#16

/-- The effect of an action that the CORE accepts. -/
def HostAction.effect : HostAction → State → State
  | .reset, _            => State.reset
  | .loadAndStart p d, s => Machine.loadAndStart p d s
  | .sourceMissing, s    => Machine.sourceMissing s

/-- A host action between two steps. One outside its run states is refused and changes nothing (R186). -/
def State.hostAct (s : State) (a : HostAction) : State :=
  if a.acceptedIn s.runState then a.effect s else s

/-! ### What the host can read -/

/-- The 2-bit code of R29 (92_eei_decisions.md D5). -/
def RunState.code : RunState → BitVec 2
  | .load         => 0
  | .running      => 1
  | .haltedNormal => 2
  | .haltedError  => 3

/-- The 4-bit code of R151 (92_eei_decisions.md D5). -/
def HaltReason.code : HaltReason → BitVec 4
  | .none              => 0
  | .haltSentinel      => 1
  | .haltEndOfMemory   => 2
  | .errSourceMissing  => 3
  | .errLoadAddress    => 4
  | .errProgramTooLong => 5
  | .errRegOperand     => 6
  | .errAluOpcode      => 7
  | .errMemAddress     => 8
  | .errDtOpcode       => 9

/-- `reg_out[0..7]` of R186: the registers, after HALTED_NORMAL only (R187). -/
def State.regOut (s : State) : Option (Vector Word Config.numRegs) :=
  if s.runState = .haltedNormal then some s.regs else none

/-- The observation of a run's end (R188). -/
structure Observation where
  runState   : RunState
  haltReason : HaltReason
  haltInfo   : Word
  registers  : Option (Vector Word Config.numRegs)
  deriving DecidableEq, Repr

/-- R188: the end of a run is the first halted state, and this is what the host sees of it: no memory, and no
register after HALTED_ERROR (92_eei_decisions.md D14). -/
def State.observe (s : State) : Option Observation :=
  match s.runState with
  | .load | .running             => none
  | .haltedNormal | .haltedError => some ⟨s.runState, s.haltReason, s.haltInfo, s.regOut⟩

end Sys2Proof.Machine
end

