-- ==== Sys2Proof/Safety.lean ====
section
/-! DEFINITION. The terms the claims are stated in: what a step may change, how a run ends, and the invariant of
the machine. -/

namespace Sys2Proof.Machine

/-- Terminal (R155, R188): HALTED_NORMAL or HALTED_ERROR. -/
abbrev State.Halted (s : State) : Prop := s.runState = .haltedNormal ∨ s.runState = .haltedError

/-- The halt record and the run state are as before. -/
structure KeepsRunning (s t : State) : Prop where
  runState   : t.runState = s.runState
  haltReason : t.haltReason = s.haltReason
  haltInfo   : t.haltInfo = s.haltInfo

/-- All eight registers are as before. -/
abbrev KeepsRegisters (s t : State) : Prop := ∀ r : RegIdx, t.readReg r = s.readReg r

/-- All 512 words of memory are as before. -/
abbrev KeepsMemory (s t : State) : Prop := ∀ a : Addr, t.memRead a = s.memRead a

/-- From `s`, the state of the fetch, to `t`: register `rd` holds `v`, the PC is one further (R133), and nothing else
has changed (R84, R116). -/
structure WritesOnlyRegister (rd : RegIdx) (v : Word) (s t : State) : Prop where
  result    : t.readReg rd = v
  registers : ∀ r : RegIdx, r ≠ rd → t.readReg r = s.readReg r
  memory    : KeepsMemory s t
  pc        : t.pc = s.pc + 1#10
  running   : KeepsRunning s t

/-- From `s` to `t`: memory holds `v` at `a`, the PC is one further, and nothing else has changed (R116). -/
structure WritesOnlyMemory (a : Addr) (v : Word) (s t : State) : Prop where
  result    : t.memRead a = v
  memory    : ∀ b : Addr, b ≠ a → t.memRead b = s.memRead b
  registers : KeepsRegisters s t
  pc        : t.pc = s.pc + 1#10
  running   : KeepsRunning s t

/-- From `s` to `t`: the fatal condition `kind` raised in execution, and only this (R153). -/
structure RaisesError (kind : HaltReason) (s t : State) : Prop where
  runState   : t.runState = .haltedError
  haltReason : t.haltReason = kind
  haltInfo   : t.haltInfo = s.pcWord
  pc         : t.pc = s.pc + 1#10
  registers  : KeepsRegisters s t
  memory     : KeepsMemory s t

/-- From `s` to `t`: a normal halt, and only this (R131, R132): the PC stays. -/
structure HaltsNormally (reason : HaltReason) (s t : State) : Prop where
  runState   : t.runState = .haltedNormal
  haltReason : t.haltReason = reason
  haltInfo   : t.haltInfo = s.pcWord
  pc         : t.pc = s.pc
  registers  : KeepsRegisters s t
  memory     : KeepsMemory s t

/-- The instruction, run in `s`, answers a next state of which `post` holds. -/
abbrev Completes (i : Instr) (s : State) (post : State → Prop) : Prop := ∃ t, exec i s = .next t ∧ post t

/-- The errors an execution can raise (R152): ERR_MEM_ADDRESS is not one of them. -/
abbrev HaltReason.ofExecution (k : HaltReason) : Prop := k = .errRegOperand ∨ k = .errAluOpcode ∨ k = .errDtOpcode

/-- How a normal halt looks (R27, R30, R131, R132). -/
abbrev NormalHaltRecord (s : State) : Prop :=
  (s.haltReason = .haltSentinel ∧ s.haltInfo = s.pcWord ∧ s.pc.toNat < Config.memWords
    ∧ s.memory.read s.pc.toNat = Config.emptyWord)
  ∨ (s.haltReason = .haltEndOfMemory ∧ s.haltInfo = s.pcWord ∧ s.pc.toNat = Config.memWords)

/-- How an error in loading looks (R27, R30, R182, R183, R186). -/
abbrev LoadErrorRecord (s : State) : Prop :=
  s.pc = 0#10 ∧ s.regs = State.reset.regs ∧
    ((s.haltReason = .errSourceMissing ∧ s.haltInfo = 0#16)
    ∨ (s.haltReason = .errProgramTooLong ∧ s.haltInfo = 513#16)
    ∨ s.haltReason = .errLoadAddress)

/-- How an error in execution looks (R27, R30, R153): `halt_info` is the fetch address, one below the PC. -/
abbrev ExecutionErrorRecord (s : State) : Prop :=
  s.haltReason.ofExecution ∧ s.haltInfo.toNat + 1 = s.pc.toNat

/-- The run state and the rest of the state agree (R26, R27, R29, R30, R151). -/
def RunStateOk (s : State) : Prop :=
  match s.runState with
  | .load         => s = State.reset
  | .running      => s.haltReason = .none ∧ s.haltInfo = 0#16
  | .haltedNormal => NormalHaltRecord s
  | .haltedError  => LoadErrorRecord s ∨ ExecutionErrorRecord s

/-- The invariant of the machine. -/
structure Invariant (s : State) : Prop where
  /-- Memory is in its canonical form, within 0..511 (R21, R22). -/
  memory : s.memory.wf = true
  /-- "`pc` takes only the values 0..512" (R26). -/
  pc     : s.pc.toNat ≤ Config.memWords
  record : RunStateOk s

/-- The states the machine can be in: reset, host actions and steps (R180, R186, R135). -/
inductive Reachable : State → Prop where
  | reset : Reachable State.reset
  | host {s : State} (a : HostAction) : Reachable s → Reachable (s.hostAct a)
  | step {s t : State} : Reachable s → Machine.step s = .next t → Reachable t

/-- `k` steps from `s`, all taken, lead to `t`. -/
abbrev Runs (k : Nat) (s t : State) : Prop := Sys2Proof.core.run k s = .next t

end Sys2Proof.Machine
end

