-- ==== Sys2Proof/Certificates/Slice0/Obligations.lean ====
section
/-! DEFINITION. The statements for the provers. Each docstring names the rules of spec/ it formalises, and the log entry
of any clause that is not the spec's plain words. -/

open Sys2Proof Sys2Proof.Machine

/-! ### Reset, run states and the host port -/

/-- R34, R180: the reset table, and reset as a host action. LOAD and the halt record's values are the spec's own
decisions D5, D6, D10 (assumption 10). -/
def Obligations.ResetClearsAllState : Prop :=
  (∀ a : Addr, State.reset.memRead a = 0xFFFF#16) ∧ (∀ r : RegIdx, State.reset.readReg r = 0#16)
  ∧ State.reset.pc = 0#10 ∧ State.reset.runState = .load
  ∧ State.reset.haltReason = .none ∧ State.reset.haltInfo = 0#16
  ∧ ∀ s : State, s.hostAct .reset = State.reset

/-- R130, R155: the loop steps only while RUNNING; the halted states are terminal, and only reset, which clears all
state (R180), leaves them. That every other host action is refused in a halted state and changes nothing is R186's
refusal, the spec's own decision D10; actions as functions beside the step are the model's choice (assumption 11). -/
def Obligations.StepsOnlyWhileRunningAndOnlyResetLeavesAHalt : Prop :=
  (∀ s t : State, step s = .next t → s.runState = .running)
  ∧ ∀ s : State, s.Halted →
      (∀ t : State, step s ≠ .next t)
      ∧ (∀ a : HostAction, a ≠ .reset → s.hostAct a = s)
      ∧ s.hostAct .reset = State.reset

/-- R130: a RUNNING state always has a step. The two faults by which the model says "no step" are the model's choice
(assumption 3). -/
def Obligations.RunningAlwaysStepsOthersAreStuck : Prop :=
  ∀ s : State,
    (s.runState = .running → ∃ t, step s = .next t)
    ∧ (s.runState = .load → step s = .fault .awaitingStart)
    ∧ (s.Halted → step s = .fault .halted)

/-- R186 (decisions D10, D20; assumption 11): the actions of the host outside their run states change
nothing; `source_missing()` in LOAD halts in error and changes nothing else. -/
def Obligations.HostActionsOutsideTheirRunStatesChangeNothing : Prop :=
  ∀ s : State,
    (∀ (a : HostAction), a ≠ .reset → s.runState ≠ .load → s.hostAct a = s)
    ∧ (s.runState = .load →
        s.hostAct .sourceMissing
          = { s with runState := .haltedError, haltReason := .errSourceMissing, haltInfo := 0#16 })

/-- R181, R183, R184, R185 (decision D23 on empty sequences): from reset, a program that fits and data at addresses of
memory start a run at `pc = 0` with zero registers; every slot holds the last data pair's value for it, else the
program's word, else EMPTY. -/
def Obligations.LoadWritesProgramThenDataAndStarts : Prop :=
  ∀ (p : List Word) (d : List (Word × Word)),
    p.length ≤ 512 → (∀ c ∈ d, c.1.toNat < 512) →
    let t := State.reset.hostAct (.loadAndStart p d)
    t.runState = .running ∧ t.pc = 0#10 ∧ (∀ r : RegIdx, t.readReg r = 0#16)
    ∧ t.haltReason = .none ∧ t.haltInfo = 0#16
    ∧ ∀ a : Addr, t.memRead a
        = ((d.reverse.find? fun c => c.1.toNat == a.val).map Prod.snd).getD (p.getD a.val 0xFFFF#16)

/-- R182 (decision D9): a program of more than 512 words fails the load with info 513, whatever the data; no register
and not the PC is written. -/
def Obligations.ProgramTooLongFailsTheLoad : Prop :=
  ∀ (p : List Word) (d : List (Word × Word)), 512 < p.length →
    let t := State.reset.hostAct (.loadAndStart p d)
    t.runState = .haltedError ∧ t.haltReason = .errProgramTooLong ∧ t.haltInfo = 513#16
    ∧ t.pc = 0#10 ∧ ∀ r : RegIdx, t.readReg r = 0#16

/-- R183 (decision D18): the first data pair whose address is 512 or more fails the load with its 1-based number; the
pairs before it were applied and the later ones were not. A number of 65536 or more has no stated info (assumption 9). -/
def Obligations.DataAddressOutOfMemoryFailsTheLoad : Prop :=
  ∀ (p : List Word) (d₁ d₂ : List (Word × Word)) (a v : Word),
    p.length ≤ 512 → (∀ c ∈ d₁, c.1.toNat < 512) → 512 ≤ a.toNat →
    let t := State.reset.hostAct (.loadAndStart p (d₁ ++ (a, v) :: d₂))
    t.runState = .haltedError ∧ t.haltReason = .errLoadAddress
    ∧ (d₁.length + 1 < 65536 → t.haltInfo.toNat = d₁.length + 1)
    ∧ t.pc = 0#10 ∧ (∀ r : RegIdx, t.readReg r = 0#16)
    ∧ ∀ b : Addr, t.memRead b = (State.reset.hostAct (.loadAndStart p d₁)).memRead b

/-- R187, R188 (decision D14): the host sees the registers after HALTED_NORMAL only, and memory never. -/
def Obligations.HostObservesRegistersOnlyAfterANormalHalt : Prop :=
  (∀ s : State, s.runState = .haltedNormal →
    s.observe = some ⟨.haltedNormal, s.haltReason, s.haltInfo, some s.regs⟩)
  ∧ (∀ s : State, s.runState = .haltedError →
    s.observe = some ⟨.haltedError, s.haltReason, s.haltInfo, none⟩)
  ∧ (∀ s : State, ¬ s.Halted → s.observe = none)
  ∧ ∀ (s : State) (m : Memory), { s with memory := m }.observe = s.observe

/-- R29, R151 (decision D5): the codes of the run states and of the halt reasons. -/
def Obligations.StatusCodesAreThoseOfTheTables : Prop :=
  [RunState.load, .running, .haltedNormal, .haltedError].map RunState.code = [0#2, 1#2, 2#2, 3#2]
  ∧ [HaltReason.none, .haltSentinel, .haltEndOfMemory, .errSourceMissing, .errLoadAddress, .errProgramTooLong,
      .errRegOperand, .errAluOpcode, .errMemAddress, .errDtOpcode].map HaltReason.code
      = [0#4, 1#4, 2#4, 3#4, 4#4, 5#4, 6#4, 7#4, 8#4, 9#4]

/-! ### Encoding -/

/-- R63: splitting a word into its six fields loses no bit, and the word is the fields' weighted sum. -/
def Obligations.FieldsRejoinToTheWord : Prop :=
  ∀ w : Word,
    joinFields (splitFields w) = w
    ∧ w.toNat = (splitFields w).tBit.toNat * 2 ^ 15 + (splitFields w).opcode.toNat * 2 ^ 11
        + (splitFields w).iBit.toNat * 2 ^ 10 + (splitFields w).operand1.toNat * 2 ^ 7
        + (splitFields w).operand2.toNat * 2 ^ 3 + (splitFields w).operand3.toNat

/-- R61, R63, R69: the decoder reads back every instruction, with every operand at every value of its field, the
ignored bits of LOAD and STORE among them. -/
def Obligations.DecodeReadsBackEveryEncodedInstruction : Prop :=
  ∀ i : Instr, decode (encode i) = .ok i

/-- R62, R63: a word that decodes to an instruction is that instruction's encoding, bit for bit, and a rejected word's
fields rejoin to the word. -/
def Obligations.DecodedWordsReencodeToThemselves : Prop :=
  ∀ w : Word,
    (∀ i : Instr, decode w = .ok i → encode i = w)
    ∧ ∀ f : Fields, decode w = .error (.aluOpcode f) ∨ decode w = .error (.dtOpcode f) → joinFields f = w

/-- R70, R71, R72: which words are no instruction, and which one is the sentinel. -/
def Obligations.IllegalWordsAreTheThreeRanges : Prop :=
  ∀ w : Word,
    ((∃ f, decode w = .error (.aluOpcode f)) ↔ 0x2800 ≤ w.toNat ∧ w.toNat ≤ 0x7FFF)
    ∧ ((∃ f, decode w = .error (.dtOpcode f)) ↔
        (0x8000 ≤ w.toNat ∧ w.toNat ≤ 0xA7FF) ∨ (0xB800 ≤ w.toNat ∧ w.toNat ≤ 0xFFFE))
    ∧ (decode w = .ok .halt ↔ w = 0xFFFF#16)

/-- R69: a word matches a row of the opcode table exactly when it decodes to an instruction of the row's mnemonic, so
no word matches two rows. -/
def Obligations.DecoderFollowsTheOpcodeTable : Prop :=
  ∀ w : Word, ∀ r ∈ opcodeTable,
    w &&& r.mask = r.bits ↔ ∃ i : Instr, decode w = .ok i ∧ i.mnemonic = r.mnemonic

/-- R86 to R95, R114, R115, R132: the words of the rules' own examples decode to the instructions they stand for. -/
def Obligations.ExampleWordsDecode : Prop :=
  decode 0x0093#16 = .ok (.add 1 2 3) ∧ decode 0x04FB#16 = .ok (.addi 1 15 3)
  ∧ decode 0x0893#16 = .ok (.sub 1 2 3) ∧ decode 0x0C83#16 = .ok (.subi 1 0 3)
  ∧ decode 0x122E#16 = .ok (.and 4 5 6) ∧ decode 0x164E#16 = .ok (.andi 4 9 6)
  ∧ decode 0x1B81#16 = .ok (.or 7 0 1) ∧ decode 0x1FF8#16 = .ok (.ori 7 15 0)
  ∧ decode 0x2112#16 = .ok (.xor 2 2 2) ∧ decode 0x25D3#16 = .ok (.xori 3 10 3)
  ∧ decode 0xA840#16 = .ok (.load 0 0 8 0) ∧ decode 0xA847#16 = .ok (.load 0 0 8 7)
  ∧ decode 0xB1F8#16 = .ok (.store 0 3 15 0) ∧ decode 0xFFFF#16 = .ok .halt

/-- R74 (decision D8): what the pseudo-instructions HALT, NOP, MOV, CLR and LI do. -/
def Obligations.PseudoInstructionsDoWhatTheirNamesSay : Prop :=
  assemble .halt = [0xFFFF#16]
  ∧ (∃ (w : Word) (i : Instr), assemble .nop = [w] ∧ decode w = .ok i ∧ ∀ s : State, Completes i s fun t =>
      KeepsRegisters s t ∧ KeepsMemory s t ∧ KeepsRunning s t ∧ t.pc = s.pc + 1#10)
  ∧ (∀ d r : RegIdx, ∃ (w : Word) (i : Instr), assemble (.mov d r) = [w] ∧ decode w = .ok i ∧
      ∀ s : State, Completes i s (WritesOnlyRegister d (s.readReg r) s))
  ∧ (∀ d : RegIdx, ∃ (w : Word) (i : Instr), assemble (.clr d) = [w] ∧ decode w = .ok i ∧
      ∀ s : State, Completes i s (WritesOnlyRegister d 0#16 s))
  ∧ ∀ (d : RegIdx) (n : Operand2), ∃ (w₁ w₂ : Word) (i₁ i₂ : Instr),
      assemble (.li d n) = [w₁, w₂] ∧ decode w₁ = .ok i₁ ∧ decode w₂ = .ok i₂ ∧
      ∀ s : State, Completes i₁ s fun t => Completes i₂ t fun u =>
        (u.readReg d).toNat = n.toNat ∧ (∀ r : RegIdx, r ≠ d → u.readReg r = s.readReg r)
        ∧ KeepsMemory s u ∧ KeepsRunning s u ∧ u.pc = s.pc + 2#10

/-! ### The ALU -/

/-- R86: ADD, register form. -/
def Obligations.AddRegisterForm : Prop :=
  ∀ (s : State) (rd : RegIdx) (ra : Operand2) (rb : RegIdx),
    encode (.add rd ra rb) = 0#1 ++ 0#4 ++ 0#1 ++ rd ++ ra ++ rb
    ∧ (ra.toNat ≤ 7 → Completes (.add rd ra rb) s
        (WritesOnlyRegister rd
          (BitVec.ofNat 16 (((s.readReg (ra.setWidth 3)).toNat + (s.readReg rb).toNat) % 65536)) s))
    ∧ (7 < ra.toNat → Completes (.add rd ra rb) s (RaisesError .errRegOperand s))

/-- R88: SUB, register form: first minus second, which is the spec's own decision D3 (assumption 4). -/
def Obligations.SubRegisterForm : Prop :=
  ∀ (s : State) (rd : RegIdx) (ra : Operand2) (rb : RegIdx),
    encode (.sub rd ra rb) = 0#1 ++ 1#4 ++ 0#1 ++ rd ++ ra ++ rb
    ∧ (ra.toNat ≤ 7 → Completes (.sub rd ra rb) s
        (WritesOnlyRegister rd
          (BitVec.ofInt 16 ((((s.readReg (ra.setWidth 3)).toNat : Int) - ((s.readReg rb).toNat : Int)) % 65536)) s))
    ∧ (7 < ra.toNat → Completes (.sub rd ra rb) s (RaisesError .errRegOperand s))

/-- R90: AND, register form. -/
def Obligations.AndRegisterForm : Prop :=
  ∀ (s : State) (rd : RegIdx) (ra : Operand2) (rb : RegIdx),
    encode (.and rd ra rb) = 0#1 ++ 2#4 ++ 0#1 ++ rd ++ ra ++ rb
    ∧ (ra.toNat ≤ 7 → Completes (.and rd ra rb) s
        (WritesOnlyRegister rd (s.readReg (ra.setWidth 3) &&& s.readReg rb) s))
    ∧ (7 < ra.toNat → Completes (.and rd ra rb) s (RaisesError .errRegOperand s))

/-- R92: OR, register form. -/
def Obligations.OrRegisterForm : Prop :=
  ∀ (s : State) (rd : RegIdx) (ra : Operand2) (rb : RegIdx),
    encode (.or rd ra rb) = 0#1 ++ 3#4 ++ 0#1 ++ rd ++ ra ++ rb
    ∧ (ra.toNat ≤ 7 → Completes (.or rd ra rb) s
        (WritesOnlyRegister rd (s.readReg (ra.setWidth 3) ||| s.readReg rb) s))
    ∧ (7 < ra.toNat → Completes (.or rd ra rb) s (RaisesError .errRegOperand s))

/-- R94: XOR, register form; an operand with itself gives 0. -/
def Obligations.XorRegisterForm : Prop :=
  ∀ (s : State) (rd : RegIdx) (ra : Operand2) (rb : RegIdx),
    encode (.xor rd ra rb) = 0#1 ++ 4#4 ++ 0#1 ++ rd ++ ra ++ rb
    ∧ (ra.toNat ≤ 7 → Completes (.xor rd ra rb) s
        (WritesOnlyRegister rd (s.readReg (ra.setWidth 3) ^^^ s.readReg rb) s))
    ∧ (ra.toNat = rb.toNat → Completes (.xor rd ra rb) s (WritesOnlyRegister rd 0#16 s))
    ∧ (7 < ra.toNat → Completes (.xor rd ra rb) s (RaisesError .errRegOperand s))

/-- R87: ADDI. The immediate's zero extension is the spec's own decision D2 (assumption 4). -/
def Obligations.AddImmediateForm : Prop :=
  ∀ (s : State) (rd : RegIdx) (n : Operand2) (rb : RegIdx),
    encode (.addi rd n rb) = 0#1 ++ 0#4 ++ 1#1 ++ rd ++ n ++ rb
    ∧ Completes (.addi rd n rb) s
        (WritesOnlyRegister rd (BitVec.ofNat 16 ((n.toNat + (s.readReg rb).toNat) % 65536)) s)

/-- R89: SUBI: immediate minus register. Decisions D2 and D3 (assumption 4). -/
def Obligations.SubImmediateForm : Prop :=
  ∀ (s : State) (rd : RegIdx) (n : Operand2) (rb : RegIdx),
    encode (.subi rd n rb) = 0#1 ++ 1#4 ++ 1#1 ++ rd ++ n ++ rb
    ∧ Completes (.subi rd n rb) s
        (WritesOnlyRegister rd (BitVec.ofInt 16 (((n.toNat : Int) - ((s.readReg rb).toNat : Int)) % 65536)) s)

/-- R91, R93, R95: ANDI, ORI and XORI, with their corner cases: ANDI's result has bits 15:4 zero, and ORI and XORI keep
those of the register. Decision D2 (assumption 4). -/
def Obligations.LogicalImmediateForms : Prop :=
  ∀ (s : State) (rd : RegIdx) (n : Operand2) (rb : RegIdx),
    (encode (.andi rd n rb) = 0#1 ++ 2#4 ++ 1#1 ++ rd ++ n ++ rb
      ∧ Completes (.andi rd n rb) s fun t =>
          WritesOnlyRegister rd (BitVec.ofNat 16 n.toNat &&& s.readReg rb) s t
          ∧ (t.readReg rd).toNat / 16 = 0)
    ∧ (encode (.ori rd n rb) = 0#1 ++ 3#4 ++ 1#1 ++ rd ++ n ++ rb
      ∧ Completes (.ori rd n rb) s fun t =>
          WritesOnlyRegister rd (BitVec.ofNat 16 n.toNat ||| s.readReg rb) s t
          ∧ (t.readReg rd).toNat / 16 = (s.readReg rb).toNat / 16)
    ∧ (encode (.xori rd n rb) = 0#1 ++ 4#4 ++ 1#1 ++ rd ++ n ++ rb
      ∧ Completes (.xori rd n rb) s fun t =>
          WritesOnlyRegister rd (BitVec.ofNat 16 n.toNat ^^^ s.readReg rb) s t
          ∧ (t.readReg rd).toNat / 16 = (s.readReg rb).toNat / 16)

/-- R83, R156: a word with `t_bit = 0` and opcode 5..15 raises ERR_ALU_OPCODE; where the operand check fails too, the
OPEN parameter of decision D4 decides between the two reasons, said here for both of its values, and everything else
is the same (assumption 1). -/
def Obligations.IllegalAluWordsRaise : Prop :=
  ∀ (s : State) (w : Word), s.runState = .running → fetch s = some w → 0x2800 ≤ w.toNat → w.toNat ≤ 0x7FFF →
    step s = illegalAlu Config.aluCheckOrder (splitFields w) s
    ∧ (∃ t : State, illegalAlu .opcodeFirst (splitFields w) s = .next t ∧ RaisesError .errAluOpcode s t)
    ∧ ∃ t : State, illegalAlu .operandFirst (splitFields w) s = .next t
        ∧ RaisesError (if (splitFields w).iBit = 0#1 ∧ 7 < (splitFields w).operand2.toNat then .errRegOperand
            else .errAluOpcode) s t

/-! ### The Data-Transfer Unit and memory -/

/-- R114, R116: LOAD, from the address that the meaning computes, which is operand2's value; every word of memory and
every other register stays. That bits 10 and 2:0 have no effect is the spec's own decision D13 (assumption 4). -/
def Obligations.LoadReadsItsAddress : Prop :=
  ∀ (s : State) (i : BitVec 1) (rd : RegIdx) (a : Operand2) (o3 : BitVec 3),
    encode (.load i rd a o3) = 1#1 ++ 5#4 ++ i ++ rd ++ a ++ o3
    ∧ ∃ m : Addr, addrOf? (dtAddress a).toNat = some m ∧ m.val = a.toNat
      ∧ Completes (.load i rd a o3) s (WritesOnlyRegister rd (s.memRead m) s)

/-- R115, R116: STORE, to the address that the meaning computes, which is operand2's value; every other word of memory
and every register stays. Decision D13 as for LOAD (assumption 4). -/
def Obligations.StoreWritesItsAddress : Prop :=
  ∀ (s : State) (i : BitVec 1) (rs : RegIdx) (a : Operand2) (o3 : BitVec 3),
    encode (.store i rs a o3) = 1#1 ++ 6#4 ++ i ++ rs ++ a ++ o3
    ∧ ∃ m : Addr, addrOf? (dtAddress a).toNat = some m ∧ m.val = a.toNat
      ∧ Completes (.store i rs a o3) s (WritesOnlyMemory m (s.readReg rs) s)

/-- R70, R113: a word with `t_bit = 1` and another opcode, except the sentinel, raises ERR_DT_OPCODE. -/
def Obligations.IllegalDtWordsRaise : Prop :=
  ∀ (s : State) (w : Word), s.runState = .running → fetch s = some w →
    (0x8000 ≤ w.toNat ∧ w.toNat ≤ 0xA7FF) ∨ (0xB800 ≤ w.toNat ∧ w.toNat ≤ 0xFFFE) →
    ∃ t : State, step s = .next t ∧ RaisesError .errDtOpcode s t

/-- R66 (decision D13, assumption 4): two Data-Transfer words that differ in bits 10 and 2:0 only do the same. -/
def Obligations.IgnoredBitsOfDataTransferWordsHaveNoEffect : Prop :=
  ∀ w w' : Word,
    (splitFields w).tBit = 1#1 → ((splitFields w).opcode = 5#4 ∨ (splitFields w).opcode = 6#4) →
    (splitFields w').tBit = 1#1 → (splitFields w').opcode = (splitFields w).opcode →
    (splitFields w').operand1 = (splitFields w).operand1 → (splitFields w').operand2 = (splitFields w).operand2 →
    ∃ i i' : Instr, decode w = .ok i ∧ decode w' = .ok i' ∧ ∀ s : State, exec i' s = exec i s

/-- R43, R117: a step writes no word of memory at 16..511. -/
def Obligations.StepsWriteOnlyTheFirstSixteenWords : Prop :=
  ∀ s t : State, step s = .next t → ∀ a : Addr, 16 ≤ a.val → t.memRead a = s.memRead a

/-- R43, R117: an instruction reads no word of memory at 16..511: two memories that agree on 0..15 give the same
registers, PC and halt record. -/
def Obligations.InstructionsReadOnlyTheFirstSixteenWords : Prop :=
  ∀ (i : Instr) (s : State) (m : Memory), (∀ a : Nat, a < 16 → m.read a = s.memory.read a) →
    ∃ t u : State, exec i s = .next t ∧ exec i { s with memory := m } = .next u
      ∧ KeepsRegisters t u ∧ u.pc = t.pc ∧ KeepsRunning t u
      ∧ ∀ a : Addr, a.val < 16 → u.memRead a = t.memRead a

/-- R22: memories in the canonical form that hold the same words are the same data. -/
def Obligations.CanonicalMemoriesAreEqualWhenTheirWordsAre : Prop :=
  ∀ m m' : Memory, m.wf = true → m'.wf = true → (∀ a : Nat, a < 512 → m.read a = m'.read a) → m = m'

/-- R22: a slot that was written and then given 0xFFFF cannot be told from one that was never written. -/
def Obligations.StoringEmptyUndoesAWrite : Prop :=
  ∀ (s : State) (a : Addr) (v : Word), s.memory.wf = true → s.memRead a = 0xFFFF#16 →
    (s.memWrite a v).memWrite a 0xFFFF#16 = s

/-- R54: a word that STORE puts into the next slot is the next instruction, with no fence and no delay. -/
def Obligations.StoreIsSeenByTheNextFetch : Prop :=
  ∀ (s : State) (w : Word) (i : BitVec 1) (rs : RegIdx) (a : Operand2) (o3 : BitVec 3) (j : Instr),
    s.runState = .running → fetch s = some w → decode w = .ok (.store i rs a o3) →
    a.toNat = s.pc.toNat + 1 → decode (s.readReg rs) = .ok j →
    ∃ t : State, step s = .next t ∧ t.memRead ⟨a.toNat % 512, Nat.mod_lt _ (Nat.succ_pos 511)⟩ = s.readReg rs
      ∧ step t = exec j t

/-- R51, R191: a LOAD right after a STORE to the same address gives the stored register, and the frame of the pair. -/
def Obligations.LoadAfterStoreGivesTheStoredWord : Prop :=
  ∀ (s : State) (i i' : BitVec 1) (rs rd : RegIdx) (a : Operand2) (o3 o3' : BitVec 3),
    Completes (.store i rs a o3) s fun t => Completes (.load i' rd a o3') t fun u =>
      u.readReg rd = s.readReg rs ∧ (∀ r : RegIdx, r ≠ rd → u.readReg r = s.readReg r)
      ∧ (∀ b : Addr, b.val ≠ a.toNat → u.memRead b = s.memRead b)
      ∧ KeepsRunning s u ∧ u.pc = s.pc + 2#10

/-! ### The sequencer -/

/-- R131: the end of memory. -/
def Obligations.EndOfMemoryHaltsNormally : Prop :=
  ∀ s : State, s.runState = .running → 512 ≤ s.pc.toNat →
    ∃ t : State, step s = .next t ∧ HaltsNormally .haltEndOfMemory s t
      ∧ (s.pc = 512#10 → t.haltInfo = 512#16)

/-- R132: the sentinel, at the fetch and as the instruction HALT. -/
def Obligations.SentinelHaltsNormally : Prop :=
  (∀ s : State, Completes .halt s (HaltsNormally .haltSentinel s))
  ∧ ∀ s : State, s.runState = .running → fetch s = some 0xFFFF#16 →
      ∃ t : State, step s = .next t ∧ HaltsNormally .haltSentinel s t

/-- R132, R134: where the PC is below 512, the fetch reads the word there, and the step of a decoded instruction is that
instruction's meaning, which includes the advance of the PC (assumption 5). -/
def Obligations.StepRunsTheDecodedInstruction : Prop :=
  (∀ (s : State) (a : Addr), s.pc.toNat = a.val → fetch s = some (s.memRead a))
  ∧ ∀ (s : State) (w : Word) (i : Instr), s.runState = .running → fetch s = some w → decode w = .ok i →
      step s = exec i s

/-- R26, R133, R136: a step leaves the PC where it is, and then it is a normal halt, or moves it on by exactly 1; no
instruction transfers control. -/
def Obligations.PcStaysOrGrowsByOne : Prop :=
  ∀ s t : State, step s = .next t →
    (t.pc = s.pc ∧ t.runState = .haltedNormal)
    ∨ (s.pc.toNat < 512 ∧ t.pc.toNat = s.pc.toNat + 1 ∧ t.runState ≠ .haltedNormal)

/-- R150, R152: every instruction completes in every state; it halts in error exactly where it is not well-formed, and
then with ERR_REG_OPERAND and nothing written. -/
def Obligations.InstructionsFailExactlyOnAMissingRegister : Prop :=
  ∀ (i : Instr) (s : State),
    (¬ WellFormed i → Completes i s (RaisesError .errRegOperand s))
    ∧ (WellFormed i → Completes i s fun t => t.runState = s.runState ∨ t.runState = .haltedNormal)

/-- R153, R154: an error in execution is precise: nothing is written, the PC is the fetch address plus 1, the info is the
fetch address (decision D6), and the reason is one of three, so ERR_MEM_ADDRESS never is. -/
def Obligations.ExecutionErrorsArePrecise : Prop :=
  ∀ s t : State, step s = .next t → t.runState = .haltedError →
    RaisesError t.haltReason s t ∧ t.haltReason.ofExecution

/-- R135 with R85 and R113: the step by instruction is the spec's pseudocode over raw fields, line by line. -/
def Obligations.StepRefinesThePseudocode : Prop :=
  ∀ s : State, s.runState = .running → step s = .next (stepR135 Config.aluCheckOrder s)

/-- The host's one-word interface runs the word's instruction as the very next step, from every state (assumption 6). -/
def Obligations.PlacedWordIsTheNextInstruction : Prop :=
  ∀ (s : State) (w : Word) (i : Instr), decode w = .ok i →
    step (s.withFetchWord 16 w.toNat) = exec i (s.withFetchWord 16 w.toNat)

/-- R181, R185: from reset, placing one word is the host's load of the program of that one word (assumption 6). -/
def Obligations.PlacedWordFromResetIsAProgramLoad : Prop :=
  ∀ w : Word, State.reset.hostAct (.loadAndStart [w] []) = State.reset.withFetchWord 16 w.toNat

/-! ### Invariants and whole runs -/

/-- The invariant holds at reset. -/
def Obligations.InvariantHoldsAtReset : Prop := Invariant State.reset

/-- R21, R22, R26, R27, R30, R151: every step keeps the invariant. -/
def Obligations.StepKeepsTheInvariant : Prop :=
  ∀ s t : State, Invariant s → step s = .next t → Invariant t

/-- R180 to R186: every host action keeps the invariant. -/
def Obligations.HostActionsKeepTheInvariant : Prop :=
  ∀ (s : State) (a : HostAction), Invariant s → Invariant (s.hostAct a)

/-- R20 to R30: whatever the host does and however the CORE steps, the invariant holds. The induction over runs that
`InvariantHoldsAtReset`, `StepKeepsTheInvariant` and `HostActionsKeepTheInvariant` give. -/
def Obligations.ReachableStatesMeetTheInvariant : Prop :=
  ∀ s : State, Reachable s → Invariant s

/-- R137: from a RUNNING state with the PC in 0..512, the run halts after at most 513 minus PC steps. -/
def Obligations.EveryRunHalts : Prop :=
  ∀ s : State, s.runState = .running → s.pc.toNat ≤ 512 →
    ∃ (n : Nat) (t : State), n ≤ 513 - s.pc.toNat ∧ Runs n s t ∧ t.Halted

/-- R138: a run from `pc = 0` halts normally exactly when it reaches, with every instruction before executed without a
fatal condition, the first sentinel word at the PC, or 512; otherwise it ends in HALTED_ERROR. -/
def Obligations.RunHaltsNormallyIffItReachesTheSentinelOrTheEnd : Prop :=
  ∀ s : State, s.runState = .running → s.pc = 0#10 →
    let reachesTheEnd := ∃ (k : Nat) (t : State), k ≤ 512 ∧ Runs k s t ∧ t.runState = .running ∧ t.pc.toNat = k
      ∧ (k = 512 ∨ fetch t = some 0xFFFF#16)
      ∧ ∀ j : Nat, j < k → ∃ u : State, Runs j s u ∧ u.runState = .running ∧ u.pc.toNat = j
          ∧ fetch u ≠ some 0xFFFF#16
    ((∃ (n : Nat) (t : State), Runs n s t ∧ t.runState = .haltedNormal) ↔ reachesTheEnd)
    ∧ (¬ reachesTheEnd → ∃ (n : Nat) (t : State), Runs n s t ∧ t.runState = .haltedError)
end

