-- ==== Sys2Proof/Laws/State.lean ====
section
/-! SUPPORT. What each state update does to each field and to each accessor, one lemma each, so that no proof
unfolds a record update. -/

namespace Sys2Proof.Machine

/-! ### advancePc -/
@[simp] theorem advancePc_memory (s : State) : s.advancePc.memory = s.memory := rfl
@[simp] theorem advancePc_regs (s : State) : s.advancePc.regs = s.regs := rfl
@[simp] theorem advancePc_pc (s : State) : s.advancePc.pc = s.pc + 1#10 := rfl
@[simp] theorem advancePc_runState (s : State) : s.advancePc.runState = s.runState := rfl
@[simp] theorem advancePc_haltReason (s : State) : s.advancePc.haltReason = s.haltReason := rfl
@[simp] theorem advancePc_haltInfo (s : State) : s.advancePc.haltInfo = s.haltInfo := rfl
@[simp] theorem advancePc_readReg (s : State) (r : RegIdx) : s.advancePc.readReg r = s.readReg r := rfl
@[simp] theorem advancePc_memRead (s : State) (a : Addr) : s.advancePc.memRead a = s.memRead a := rfl

/-! ### raise -/
@[simp] theorem raise_memory (s : State) (k : HaltReason) (w : Word) : (s.raise k w).memory = s.memory := rfl
@[simp] theorem raise_regs (s : State) (k : HaltReason) (w : Word) : (s.raise k w).regs = s.regs := rfl
@[simp] theorem raise_pc (s : State) (k : HaltReason) (w : Word) : (s.raise k w).pc = s.pc := rfl
@[simp] theorem raise_runState (s : State) (k : HaltReason) (w : Word) : (s.raise k w).runState = .haltedError := rfl
@[simp] theorem raise_haltReason (s : State) (k : HaltReason) (w : Word) : (s.raise k w).haltReason = k := rfl
@[simp] theorem raise_haltInfo (s : State) (k : HaltReason) (w : Word) : (s.raise k w).haltInfo = w := rfl
@[simp] theorem raise_readReg (s : State) (k : HaltReason) (w : Word) (r : RegIdx) :
    (s.raise k w).readReg r = s.readReg r := rfl
@[simp] theorem raise_memRead (s : State) (k : HaltReason) (w : Word) (a : Addr) :
    (s.raise k w).memRead a = s.memRead a := rfl

/-! ### haltNormal -/
@[simp] theorem haltNormal_memory (s : State) (k : HaltReason) (w : Word) : (s.haltNormal k w).memory = s.memory := rfl
@[simp] theorem haltNormal_regs (s : State) (k : HaltReason) (w : Word) : (s.haltNormal k w).regs = s.regs := rfl
@[simp] theorem haltNormal_pc (s : State) (k : HaltReason) (w : Word) : (s.haltNormal k w).pc = s.pc := rfl
@[simp] theorem haltNormal_runState (s : State) (k : HaltReason) (w : Word) :
    (s.haltNormal k w).runState = .haltedNormal := rfl
@[simp] theorem haltNormal_haltReason (s : State) (k : HaltReason) (w : Word) :
    (s.haltNormal k w).haltReason = k := rfl
@[simp] theorem haltNormal_haltInfo (s : State) (k : HaltReason) (w : Word) : (s.haltNormal k w).haltInfo = w := rfl
@[simp] theorem haltNormal_readReg (s : State) (k : HaltReason) (w : Word) (r : RegIdx) :
    (s.haltNormal k w).readReg r = s.readReg r := rfl
@[simp] theorem haltNormal_memRead (s : State) (k : HaltReason) (w : Word) (a : Addr) :
    (s.haltNormal k w).memRead a = s.memRead a := rfl

/-! ### writeReg -/
@[simp] theorem writeReg_memory (s : State) (i : RegIdx) (v : Word) : (s.writeReg i v).memory = s.memory := rfl
@[simp] theorem writeReg_pc (s : State) (i : RegIdx) (v : Word) : (s.writeReg i v).pc = s.pc := rfl
@[simp] theorem writeReg_runState (s : State) (i : RegIdx) (v : Word) : (s.writeReg i v).runState = s.runState := rfl
@[simp] theorem writeReg_haltReason (s : State) (i : RegIdx) (v : Word) :
    (s.writeReg i v).haltReason = s.haltReason := rfl
@[simp] theorem writeReg_haltInfo (s : State) (i : RegIdx) (v : Word) : (s.writeReg i v).haltInfo = s.haltInfo := rfl
@[simp] theorem writeReg_memRead (s : State) (i : RegIdx) (v : Word) (a : Addr) :
    (s.writeReg i v).memRead a = s.memRead a := rfl

/-- A register reads as what was last written to it; no register is hardwired (R23). -/
@[simp] theorem writeReg_readReg_same (s : State) (i : RegIdx) (v : Word) : (s.writeReg i v).readReg i = v := by
  simp [State.writeReg, State.readReg]

/-- A write to one register leaves the others alone (R23: no aliases). -/
@[simp] theorem writeReg_readReg_other (s : State) {i j : RegIdx} (v : Word) (h : j ≠ i) :
    (s.writeReg i v).readReg j = s.readReg j := by
  have hn : i.toNat ≠ j.toNat := fun e => h (BitVec.eq_of_toNat_eq e.symm)
  simp [State.writeReg, State.readReg, Vector.getElem_set_ne, hn]

/-! ### memWrite -/
@[simp] theorem memWrite_memory (s : State) (a : Addr) (v : Word) :
    (s.memWrite a v).memory = s.memory.write a.val v := rfl
@[simp] theorem memWrite_regs (s : State) (a : Addr) (v : Word) : (s.memWrite a v).regs = s.regs := rfl
@[simp] theorem memWrite_pc (s : State) (a : Addr) (v : Word) : (s.memWrite a v).pc = s.pc := rfl
@[simp] theorem memWrite_runState (s : State) (a : Addr) (v : Word) : (s.memWrite a v).runState = s.runState := rfl
@[simp] theorem memWrite_haltReason (s : State) (a : Addr) (v : Word) :
    (s.memWrite a v).haltReason = s.haltReason := rfl
@[simp] theorem memWrite_haltInfo (s : State) (a : Addr) (v : Word) : (s.memWrite a v).haltInfo = s.haltInfo := rfl
@[simp] theorem memWrite_readReg (s : State) (a : Addr) (v : Word) (r : RegIdx) :
    (s.memWrite a v).readReg r = s.readReg r := rfl

/-! ### placeAtFetch -/
@[simp] theorem placeAtFetch_memory (w : Word) (s : State) :
    (placeAtFetch w s).memory = s.memory.write (fetchPlace s).val w := rfl
@[simp] theorem placeAtFetch_regs (w : Word) (s : State) : (placeAtFetch w s).regs = s.regs := rfl
@[simp] theorem placeAtFetch_pc (w : Word) (s : State) :
    (placeAtFetch w s).pc = BitVec.ofNat 10 (fetchPlace s).val := rfl
@[simp] theorem placeAtFetch_runState (w : Word) (s : State) : (placeAtFetch w s).runState = .running := rfl
@[simp] theorem placeAtFetch_haltReason (w : Word) (s : State) : (placeAtFetch w s).haltReason = s.haltReason := rfl
@[simp] theorem placeAtFetch_haltInfo (w : Word) (s : State) : (placeAtFetch w s).haltInfo = s.haltInfo := rfl

end Sys2Proof.Machine
end

