-- ==== Sys2Proof/Laws/Memory.lean ====
section
/-! SUPPORT. The memory operations: a read gives the last write to its address, a write leaves every other address
alone, and every operation keeps the canonical form. -/

namespace Sys2Proof.Machine

/-! ### Reading after an operation, for every list whether canonical or not -/

theorem Memory.read_clear_same (m : Memory) (a : Nat) : (m.clear a).read a = Config.emptyWord := by
  induction m with
  | nil => rfl
  | cons c m ih =>
    obtain ⟨b, w⟩ := c
    by_cases h : b = a
    · simpa [Memory.clear, h] using ih
    · have ih' : Memory.read (m.filter fun c => c.1 != a) a = Config.emptyWord := ih
      simp [Memory.clear, h, Memory.read, ih']

theorem Memory.read_clear_other (m : Memory) {a b : Nat} (h : b ≠ a) : (m.clear a).read b = m.read b := by
  induction m with
  | nil => rfl
  | cons c m ih =>
    obtain ⟨k, w⟩ := c
    have ih' : Memory.read (m.filter fun c => c.1 != a) b = Memory.read m b := ih
    by_cases hk : k = a
    · have hb : k ≠ b := by omega
      simp [Memory.clear, hk, Memory.read, ih', hk ▸ hb]
    · simp [Memory.clear, hk, Memory.read, ih']

theorem Memory.read_insert_other (m : Memory) {a b : Nat} (v : Word) (h : b ≠ a) :
    (m.insert a v).read b = m.read b := by
  induction m with
  | nil => simp [Memory.insert, Memory.read, Ne.symm h]
  | cons c m ih =>
    obtain ⟨k, w⟩ := c
    simp only [Memory.insert]
    split
    · simp [Memory.read, Ne.symm h]
    · simp [Memory.read, ih]

theorem Memory.read_insert_same (m : Memory) (a : Nat) (v : Word) (h : ∀ c ∈ m, c.1 ≠ a) :
    (m.insert a v).read a = v := by
  induction m with
  | nil => simp [Memory.insert, Memory.read]
  | cons c m ih =>
    obtain ⟨k, w⟩ := c
    simp only [Memory.insert]
    split
    · simp [Memory.read]
    · have hk : k ≠ a := h (k, w) (by simp)
      simp [Memory.read, hk, ih fun c hc => h c (by simp [hc])]

theorem Memory.clear_lists_no_more (m : Memory) (a : Nat) : ∀ c ∈ m.clear a, c.1 ≠ a := by
  simp [Memory.clear]

/-- R51: a read gives the value of the most recent write to its address. -/
@[simp] theorem Memory.read_write_same (m : Memory) (a : Nat) (v : Word) : (m.write a v).read a = v := by
  unfold Memory.write
  split
  · rename_i h
    rw [Memory.read_clear_same, h]
  · exact Memory.read_insert_same _ _ _ (Memory.clear_lists_no_more m a)

/-- R42: a write changes no other location. -/
@[simp] theorem Memory.read_write_other (m : Memory) {a b : Nat} (v : Word) (h : b ≠ a) :
    (m.write a v).read b = m.read b := by
  unfold Memory.write
  split
  · exact Memory.read_clear_other m h
  · rw [Memory.read_insert_other _ v h, Memory.read_clear_other m h]

@[simp] theorem memWrite_memRead_same (s : State) (a : Addr) (v : Word) : (s.memWrite a v).memRead a = v :=
  Memory.read_write_same s.memory a.val v

@[simp] theorem memWrite_memRead_other (s : State) {a b : Addr} (v : Word) (h : b ≠ a) :
    (s.memWrite a v).memRead b = s.memRead b :=
  Memory.read_write_other s.memory v fun e => h (Fin.ext e)

/-! ### The canonical form -/

theorem Memory.wfFrom_cons {lo b : Nat} {w : Word} {m : Memory} :
    Memory.wfFrom lo ((b, w) :: m) = true ↔
      lo ≤ b ∧ b < Config.memWords ∧ w ≠ Config.emptyWord ∧ Memory.wfFrom (b + 1) m = true := by
  simp [Memory.wfFrom, and_assoc]

/-- A memory that begins above `lo` also begins above a smaller address. -/
theorem Memory.wfFrom_mono {lo lo' : Nat} {m : Memory} (h : lo' ≤ lo) (hm : Memory.wfFrom lo m = true) :
    Memory.wfFrom lo' m = true := by
  cases m with
  | nil => rfl
  | cons c m =>
    obtain ⟨b, w⟩ := c
    rw [Memory.wfFrom_cons] at hm ⊢
    exact ⟨by omega, hm.2⟩

theorem Memory.wfFrom_clear (a : Nat) (m : Memory) :
    ∀ lo, Memory.wfFrom lo m = true → Memory.wfFrom lo (m.clear a) = true := by
  induction m with
  | nil => intro lo h; exact h
  | cons c m ih =>
    obtain ⟨b, w⟩ := c
    intro lo h
    rw [Memory.wfFrom_cons] at h
    have ih' := ih (b + 1) h.2.2.2
    by_cases hb : b = a
    · have e : Memory.clear ((b, w) :: m) a = Memory.clear m a := by simp [Memory.clear, hb]
      rw [e]
      exact Memory.wfFrom_mono (by omega) ih'
    · have e : Memory.clear ((b, w) :: m) a = (b, w) :: Memory.clear m a := by simp [Memory.clear, hb]
      rw [e, Memory.wfFrom_cons]
      exact ⟨h.1, h.2.1, h.2.2.1, ih'⟩

theorem Memory.wfFrom_insert {a : Nat} {v : Word} (ha : a < Config.memWords) (hv : v ≠ Config.emptyWord) (m : Memory) :
    ∀ lo, lo ≤ a → (∀ c ∈ m, c.1 ≠ a) → Memory.wfFrom lo m = true → Memory.wfFrom lo (m.insert a v) = true := by
  induction m with
  | nil =>
    intro lo hlo _ _
    rw [Memory.insert, Memory.wfFrom_cons]
    exact ⟨hlo, ha, hv, rfl⟩
  | cons c m ih =>
    obtain ⟨b, w⟩ := c
    intro lo hlo hne h
    rw [Memory.wfFrom_cons] at h
    have hb : b ≠ a := hne (b, w) (by simp)
    rw [Memory.insert]
    split
    · rw [Memory.wfFrom_cons, Memory.wfFrom_cons]
      exact ⟨hlo, ha, hv, by omega, h.2.1, h.2.2.1, h.2.2.2⟩
    · rw [Memory.wfFrom_cons]
      exact ⟨h.1, h.2.1, h.2.2.1, ih (b + 1) (by omega) (fun c hc => hne c (by simp [hc])) h.2.2.2⟩

/-- A write at an address of memory keeps the canonical form. -/
theorem Memory.wf_write {m : Memory} {a : Nat} (v : Word) (ha : a < Config.memWords) (h : m.wf = true) :
    (m.write a v).wf = true := by
  unfold Memory.write
  have hc := Memory.wfFrom_clear a m 0 h
  split
  · exact hc
  · rename_i hv
    exact Memory.wfFrom_insert ha hv _ 0 (Nat.zero_le a) (Memory.clear_lists_no_more m a) hc

/-- `MemWrite` keeps the canonical form. -/
theorem memWrite_wf {s : State} (a : Addr) (v : Word) (h : s.memory.wf = true) :
    (s.memWrite a v).memory.wf = true :=
  Memory.wf_write v a.isLt h

/-- Reset's memory has the canonical form. -/
theorem reset_memory_wf : State.reset.memory.wf = true := rfl

end Sys2Proof.Machine
end

