-- ==== Sys2Proof/Laws/Operands.lean ====
section
/-! SUPPORT. What the bound check and the operand forms can answer. -/

namespace Sys2Proof

@[simp] theorem addrOf?_of_lt {n : Nat} (h : n < Config.memWords) : addrOf? n = some ⟨n, h⟩ := by
  simp [addrOf?, h]

@[simp] theorem addrOf?_of_ge {n : Nat} (h : Config.memWords ≤ n) : addrOf? n = none := by
  simp only [addrOf?, dite_eq_right_iff]
  intro h'
  omega

theorem addrOf?_eq_some {n : Nat} {a : Addr} : addrOf? n = some a ↔ n = a.val := by
  unfold addrOf?
  split
  · simp [Fin.ext_iff]
  · have := a.isLt
    simp
    omega

namespace Machine

@[simp] theorem immediateOperand_toNat (n : Operand2) : (immediateOperand n).toNat = n.toNat := by
  have := n.isLt
  simp [immediateOperand]
  omega

/-- R68: operand2 in 0..7 names the register of that number. -/
theorem registerOperand?_of_le (s : State) {ra : Operand2} (h : ra.toNat ≤ 7) :
    registerOperand? s ra = some (s.readReg (ra.setWidth 3)) := by
  simp [registerOperand?, h]

/-- R68: operand2 in 8..15 names no register. -/
theorem registerOperand?_of_gt (s : State) {ra : Operand2} (h : 7 < ra.toNat) : registerOperand? s ra = none := by
  have : ¬ ra.toNat ≤ 7 := by omega
  simp [registerOperand?, this]

/-- R111: the Data-Transfer address is the field's value. -/
@[simp] theorem dtAddress_toNat (a : Operand2) : (dtAddress a).toNat = a.toNat := by
  have := a.isLt
  simp [dtAddress]
  omega

/-- The address of a Data-Transfer instruction as an address of memory. -/
def dtAddr (a : Operand2) : Addr := ⟨a.toNat, Nat.lt_of_lt_of_le a.isLt (by decide)⟩

/-- R112: the bound check of the Data-Transfer unit never fails. -/
@[simp] theorem addrOf?_dtAddress (a : Operand2) : addrOf? (dtAddress a).toNat = some (dtAddr a) := by
  rw [addrOf?_eq_some]
  simp [dtAddr]

end Machine

end Sys2Proof
end

