-- ==== Sys2Proof/Laws/Exec.lean ====
section
/-! SUPPORT. One lemma per shared operation of the meanings: everything it can answer. -/

namespace Sys2Proof.Machine

/-- The ALU's register form with a register that exists (R82, R84). -/
theorem aluRegisterForm_of_le (op : AluOp) (rd : RegIdx) {ra : Operand2} (rb : RegIdx) (s : State)
    (h : ra.toNat ≤ 7) :
    aluRegisterForm op rd ra rb s =
      .next (s.advancePc.writeReg rd (aluResult op (s.readReg (ra.setWidth 3)) (s.readReg rb))) := by
  simp [aluRegisterForm, registerOperand?_of_le _ h, aluWrite, secondOperand]

/-- The ALU's register form with a register that does not exist (R82). -/
theorem aluRegisterForm_of_gt (op : AluOp) (rd : RegIdx) {ra : Operand2} (rb : RegIdx) (s : State)
    (h : 7 < ra.toNat) :
    aluRegisterForm op rd ra rb s = .next (s.advancePc.raise .errRegOperand s.pcWord) := by
  simp [aluRegisterForm, registerOperand?_of_gt _ h]

/-- The ALU's immediate form (R82, R84). -/
theorem aluImmediateForm_eq (op : AluOp) (rd : RegIdx) (n : Operand2) (rb : RegIdx) (s : State) :
    aluImmediateForm op rd n rb s =
      .next (s.advancePc.writeReg rd (aluResult op (immediateOperand n) (s.readReg rb))) := by
  simp [aluImmediateForm, aluWrite, secondOperand]

/-- The Data-Transfer Unit's access always takes place (R112). -/
theorem dtAccess_eq (a : Operand2) (s : State) (effect : Addr → State → State) :
    dtAccess a s effect = .next (effect (dtAddr a) s.advancePc) := by
  simp only [dtAccess, addrOf?_dtAddress]

/-- LOAD (R114). -/
theorem execLoad_eq (i : BitVec 1) (rd : RegIdx) (a : Operand2) (o3 : BitVec 3) (s : State) :
    execLoad i rd a o3 s = .next (s.advancePc.writeReg rd (s.memRead (dtAddr a))) := by
  simp [execLoad, dtAccess_eq]

/-- STORE (R115). -/
theorem execStore_eq (i : BitVec 1) (rs : RegIdx) (a : Operand2) (o3 : BitVec 3) (s : State) :
    execStore i rs a o3 s = .next (s.advancePc.memWrite (dtAddr a) (s.readReg rs)) := by
  simp [execStore, dtAccess_eq]

/-- An opcode that is not the Data-Transfer Unit's (R113). -/
theorem illegalDt_eq (f : Fields) (s : State) :
    illegalDt f s = .next (s.advancePc.raise .errDtOpcode s.pcWord) := by
  simp [illegalDt, dtAccess_eq]

/-- The reason of an illegal ALU word is one of two (R83). -/
theorem illegalAluReason_cases (order : Config.AluCheckOrder) (f : Fields) :
    illegalAluReason order f = .errRegOperand ∨ illegalAluReason order f = .errAluOpcode := by
  cases order
  · simp only [illegalAluReason]
    split <;> simp
  · exact .inr rfl

/-! ### The three shapes of a next state -/

theorem writesOnlyRegister_of_write (rd : RegIdx) (v : Word) (s : State) :
    WritesOnlyRegister rd v s (s.advancePc.writeReg rd v) where
  result := by simp
  registers r h := by simp [h]
  memory _ := rfl
  pc := rfl
  running := ⟨rfl, rfl, rfl⟩

theorem writesOnlyMemory_of_write (a : Addr) (v : Word) (s : State) :
    WritesOnlyMemory a v s (s.advancePc.memWrite a v) where
  result := by simp
  memory b h := by simp [h]
  registers _ := rfl
  pc := rfl
  running := ⟨rfl, rfl, rfl⟩

theorem raisesError_of_raise (kind : HaltReason) (s : State) :
    RaisesError kind s (s.advancePc.raise kind s.pcWord) where
  runState := rfl
  haltReason := rfl
  haltInfo := rfl
  pc := rfl
  registers _ := rfl
  memory _ := rfl

theorem haltsNormally_of_halt (reason : HaltReason) (s : State) :
    HaltsNormally reason s (s.haltNormal reason s.pcWord) where
  runState := rfl
  haltReason := rfl
  haltInfo := rfl
  pc := rfl
  registers _ := rfl
  memory _ := rfl

/-! ### What an instruction can do, once for all of them -/

/-- Everything `exec` can answer: a register written, a word of memory at 0..15 written, ERR_REG_OPERAND raised, or
the sentinel's halt, which is HALT's alone. It never faults and never refuses. -/
inductive ExecEffect (i : Instr) (s : State) : Result → Prop where
  | register (rd : RegIdx) (v : Word) : ExecEffect i s (.next (s.advancePc.writeReg rd v))
  | memory (a : Operand2) (v : Word) : ExecEffect i s (.next (s.advancePc.memWrite (dtAddr a) v))
  | noRegister : ExecEffect i s (.next (s.advancePc.raise .errRegOperand s.pcWord))
  | sentinel (hi : i = .halt) : ExecEffect i s (.next (s.haltNormal .haltSentinel s.pcWord))

theorem aluRegisterForm_effect (i : Instr) (op : AluOp) (rd : RegIdx) (ra : Operand2) (rb : RegIdx) (s : State) :
    ExecEffect i s (aluRegisterForm op rd ra rb s) := by
  by_cases h : ra.toNat ≤ 7
  · rw [aluRegisterForm_of_le op rd rb s h]
    exact .register rd _
  · rw [aluRegisterForm_of_gt op rd rb s (by omega)]
    exact .noRegister

theorem aluImmediateForm_effect (i : Instr) (op : AluOp) (rd : RegIdx) (n : Operand2) (rb : RegIdx) (s : State) :
    ExecEffect i s (aluImmediateForm op rd n rb s) := by
  rw [aluImmediateForm_eq]
  exact .register rd _

theorem exec_effect (i : Instr) (s : State) : ExecEffect i s (exec i s) := by
  cases i with
  | add rd ra rb | sub rd ra rb | and rd ra rb | or rd ra rb | xor rd ra rb =>
    exact aluRegisterForm_effect _ _ rd ra rb s
  | addi rd n rb | subi rd n rb | andi rd n rb | ori rd n rb | xori rd n rb =>
    exact aluImmediateForm_effect _ _ rd n rb s
  | load i rd a o3 =>
    rw [exec, execLoad_eq]
    exact .register rd _
  | store i rs a o3 =>
    rw [exec, execStore_eq]
    exact .memory a _
  | halt => exact .sentinel rfl

end Sys2Proof.Machine
end

