-- ==== Sys2Proof/Laws/Host.lean ====
section
/-! SUPPORT. What loading can do (spec 70_reset_and_hazards.md R181 to R186), said once per shared operation. -/

namespace Sys2Proof.Machine

/-- Loading writes nothing but memory, the run state and the halt record. -/
structure LoadingFrame (s t : State) : Prop where
  regs : t.regs = s.regs
  pc   : t.pc = s.pc
  wf   : s.memory.wf = true → t.memory.wf = true

theorem LoadingFrame.refl (s : State) : LoadingFrame s s := ⟨rfl, rfl, id⟩

theorem LoadingFrame.trans {s t u : State} (h : LoadingFrame s t) (h' : LoadingFrame t u) : LoadingFrame s u :=
  ⟨h'.regs.trans h.regs, h'.pc.trans h.pc, fun hw => h'.wf (h.wf hw)⟩

theorem LoadingFrame.memWrite (s : State) (a : Addr) (v : Word) : LoadingFrame s (s.memWrite a v) :=
  ⟨rfl, rfl, memWrite_wf a v⟩

theorem LoadingFrame.raise (s : State) (k : HaltReason) (w : Word) : LoadingFrame s (s.raise k w) :=
  ⟨rfl, rfl, id⟩

/-- The run state and the halt record are as they were. -/
structure SameRecord (s t : State) : Prop where
  runState   : t.runState = s.runState
  haltReason : t.haltReason = s.haltReason
  haltInfo   : t.haltInfo = s.haltInfo

/-- Program load touches nothing but memory and, on failure, the halt record. -/
theorem loadProgram_frame (p : List Word) : ∀ (k : Nat) (s : State), LoadingFrame s (loadProgram k p s) := by
  induction p with
  | nil => intro k s; exact .refl s
  | cons w p ih =>
    intro k s
    unfold loadProgram
    split
    · exact (LoadingFrame.memWrite s _ w).trans (ih _ _)
    · exact .raise s _ _

/-- Data load touches nothing but memory and, on failure, the halt record. -/
theorem loadData_frame (d : List (Word × Word)) : ∀ (j : Nat) (s : State), LoadingFrame s (loadData j d s) := by
  induction d with
  | nil => intro j s; exact .refl s
  | cons c d ih =>
    intro j s
    obtain ⟨a, v⟩ := c
    unfold loadData
    split
    · exact (LoadingFrame.memWrite s _ v).trans (ih _ _)
    · exact .raise s _ _

/-- Program load ends as it began, or in ERR_PROGRAM_TOO_LONG with info 513 (R182). -/
theorem loadProgram_record (p : List Word) : ∀ (k : Nat) (s : State), k ≤ Config.memWords →
    SameRecord s (loadProgram k p s) ∨
      ((loadProgram k p s).runState = .haltedError ∧ (loadProgram k p s).haltReason = .errProgramTooLong
        ∧ (loadProgram k p s).haltInfo = 513#16) := by
  induction p with
  | nil => intro k s _; exact .inl ⟨rfl, rfl, rfl⟩
  | cons w p ih =>
    intro k s hk
    by_cases h : k < Config.memWords
    · have e : loadProgram k (w :: p) s = loadProgram (k + 1) p (s.memWrite ⟨k, h⟩ w) := by
        rw [loadProgram, addrOf?_of_lt h]
      rw [e]
      rcases ih (k + 1) (s.memWrite ⟨k, h⟩ w) h with hs | hs
      · exact .inl ⟨hs.runState, hs.haltReason, hs.haltInfo⟩
      · exact .inr hs
    · obtain rfl : k = Config.memWords := by omega
      exact .inr ⟨rfl, rfl, rfl⟩

/-- Data load ends as it began, or in ERR_LOAD_ADDRESS (R183). -/
theorem loadData_record (d : List (Word × Word)) : ∀ (j : Nat) (s : State),
    SameRecord s (loadData j d s) ∨
      ((loadData j d s).runState = .haltedError ∧ (loadData j d s).haltReason = .errLoadAddress) := by
  induction d with
  | nil => intro j s; exact .inl ⟨rfl, rfl, rfl⟩
  | cons c d ih =>
    intro j s
    obtain ⟨a, v⟩ := c
    unfold loadData
    split
    · rename_i addr _
      rcases ih (j + 1) (s.memWrite addr v) with hs | hs
      · exact .inl ⟨hs.runState, hs.haltReason, hs.haltInfo⟩
      · exact .inr hs
    · exact .inr ⟨rfl, rfl⟩

end Sys2Proof.Machine
end

