-- ==== Sys2Proof/Laws/PerInstr.lean ====
section
/-! SUPPORT. Statements about every instruction as syntax, one lemma per constructor. -/

namespace Sys2Proof.Laws

/-- Bits 15:10 of a word are its t bit, its opcode and its i bit; the rest of an instruction's word is its operands. -/
theorem joinFields_and_fixed (f : Fields) :
    joinFields f &&& 0xFC00#16 = f.tBit ++ f.opcode ++ f.iBit ++ 0#10 := by
  apply BitVec.eq_of_getLsbD_eq
  intro k hk
  have hk' : k < 16 := by omega
  rcases f with ⟨t, o, i, a, b, c⟩
  simp only [joinFields, BitVec.getLsbD_and, BitVec.getLsbD_append]
  rcases (by omega : k = 0 ∨ k = 1 ∨ k = 2 ∨ k = 3 ∨ k = 4 ∨ k = 5 ∨ k = 6 ∨ k = 7 ∨ k = 8 ∨ k = 9 ∨ k = 10 ∨ k = 11
    ∨ k = 12 ∨ k = 13 ∨ k = 14 ∨ k = 15) with
    h | h | h | h | h | h | h | h | h | h | h | h | h | h | h | h <;> subst h <;> simp

/-- As `joinFields_and_fixed`, without the i bit, which a Data-Transfer row does not fix. -/
theorem joinFields_and_fixedDt (f : Fields) :
    joinFields f &&& 0xF800#16 = f.tBit ++ f.opcode ++ 0#11 := by
  apply BitVec.eq_of_getLsbD_eq
  intro k hk
  have hk' : k < 16 := by omega
  rcases f with ⟨t, o, i, a, b, c⟩
  simp only [joinFields, BitVec.getLsbD_and, BitVec.getLsbD_append]
  rcases (by omega : k = 0 ∨ k = 1 ∨ k = 2 ∨ k = 3 ∨ k = 4 ∨ k = 5 ∨ k = 6 ∨ k = 7 ∨ k = 8 ∨ k = 9 ∨ k = 10 ∨ k = 11
    ∨ k = 12 ∨ k = 13 ∨ k = 14 ∨ k = 15) with
    h | h | h | h | h | h | h | h | h | h | h | h | h | h | h | h <;> subst h <;> simp

/-- The instruction's word belongs to the row of the opcode table that has its mnemonic (R69). -/
def TableRow.Statement (i : Instr) : Prop :=
  ∃ r ∈ opcodeTable, r.mnemonic = i.mnemonic ∧ encode i &&& r.mask = r.bits

theorem TableRow.add (rd : RegIdx) (ra : Operand2) (rb : RegIdx) : TableRow.Statement (.add rd ra rb) :=
  ⟨⟨"ADD", 0x0000, 0xFC00⟩, by decide, rfl, (joinFields_and_fixed (instrFields (.add rd ra rb))).trans (by simp [instrFields])⟩

theorem TableRow.addi (rd : RegIdx) (n : Operand2) (rb : RegIdx) : TableRow.Statement (.addi rd n rb) :=
  ⟨⟨"ADDI", 0x0400, 0xFC00⟩, by decide, rfl, (joinFields_and_fixed (instrFields (.addi rd n rb))).trans (by simp [instrFields])⟩

theorem TableRow.sub (rd : RegIdx) (ra : Operand2) (rb : RegIdx) : TableRow.Statement (.sub rd ra rb) :=
  ⟨⟨"SUB", 0x0800, 0xFC00⟩, by decide, rfl, (joinFields_and_fixed (instrFields (.sub rd ra rb))).trans (by simp [instrFields])⟩

theorem TableRow.subi (rd : RegIdx) (n : Operand2) (rb : RegIdx) : TableRow.Statement (.subi rd n rb) :=
  ⟨⟨"SUBI", 0x0C00, 0xFC00⟩, by decide, rfl, (joinFields_and_fixed (instrFields (.subi rd n rb))).trans (by simp [instrFields])⟩

theorem TableRow.and (rd : RegIdx) (ra : Operand2) (rb : RegIdx) : TableRow.Statement (.and rd ra rb) :=
  ⟨⟨"AND", 0x1000, 0xFC00⟩, by decide, rfl, (joinFields_and_fixed (instrFields (.and rd ra rb))).trans (by simp [instrFields])⟩

theorem TableRow.andi (rd : RegIdx) (n : Operand2) (rb : RegIdx) : TableRow.Statement (.andi rd n rb) :=
  ⟨⟨"ANDI", 0x1400, 0xFC00⟩, by decide, rfl, (joinFields_and_fixed (instrFields (.andi rd n rb))).trans (by simp [instrFields])⟩

theorem TableRow.or (rd : RegIdx) (ra : Operand2) (rb : RegIdx) : TableRow.Statement (.or rd ra rb) :=
  ⟨⟨"OR", 0x1800, 0xFC00⟩, by decide, rfl, (joinFields_and_fixed (instrFields (.or rd ra rb))).trans (by simp [instrFields])⟩

theorem TableRow.ori (rd : RegIdx) (n : Operand2) (rb : RegIdx) : TableRow.Statement (.ori rd n rb) :=
  ⟨⟨"ORI", 0x1C00, 0xFC00⟩, by decide, rfl, (joinFields_and_fixed (instrFields (.ori rd n rb))).trans (by simp [instrFields])⟩

theorem TableRow.xor (rd : RegIdx) (ra : Operand2) (rb : RegIdx) : TableRow.Statement (.xor rd ra rb) :=
  ⟨⟨"XOR", 0x2000, 0xFC00⟩, by decide, rfl, (joinFields_and_fixed (instrFields (.xor rd ra rb))).trans (by simp [instrFields])⟩

theorem TableRow.xori (rd : RegIdx) (n : Operand2) (rb : RegIdx) : TableRow.Statement (.xori rd n rb) :=
  ⟨⟨"XORI", 0x2400, 0xFC00⟩, by decide, rfl, (joinFields_and_fixed (instrFields (.xori rd n rb))).trans (by simp [instrFields])⟩

theorem TableRow.load (i : BitVec 1) (rd : RegIdx) (a : Operand2) (o3 : BitVec 3) :
    TableRow.Statement (.load i rd a o3) :=
  ⟨⟨"LOAD", 0xA800, 0xF800⟩, by decide, rfl, (joinFields_and_fixedDt (instrFields (.load i rd a o3))).trans (by simp [instrFields])⟩

theorem TableRow.store (i : BitVec 1) (rs : RegIdx) (a : Operand2) (o3 : BitVec 3) :
    TableRow.Statement (.store i rs a o3) :=
  ⟨⟨"STORE", 0xB000, 0xF800⟩, by decide, rfl, (joinFields_and_fixedDt (instrFields (.store i rs a o3))).trans (by simp [instrFields])⟩

theorem TableRow.halt : TableRow.Statement .halt :=
  ⟨⟨"HALT", 0xFFFF, 0xFFFF⟩, by decide, rfl, by decide⟩

end Sys2Proof.Laws
end

