-- ==== Sys2Proof/Laws/Step.lean ====
section
/-! SUPPORT. What one step can do (spec 43_sequencer.md R135), said once. -/

namespace Sys2Proof.Machine

theorem noStep?_of_running {s : State} (h : s.runState = .running) : noStep? s = none := by
  simp [noStep?, h]

theorem running_of_step_next {s t : State} (h : step s = .next t) : s.runState = .running := by
  unfold step at h
  cases hr : s.runState with
  | running => rfl
  | load | haltedNormal | haltedError => simp [noStep?, hr] at h

theorem fetch_of_lt {s : State} (h : s.pc.toNat < Config.memWords) : fetch s = some (s.memRead ⟨s.pc.toNat, h⟩) := by
  simp [fetch, h]

theorem fetch_of_ge {s : State} (h : Config.memWords ≤ s.pc.toNat) : fetch s = none := by
  simp [fetch, h]

/-- The step at the end of memory (R131). -/
theorem step_of_no_fetch {s : State} (hr : s.runState = .running) (hf : fetch s = none) :
    step s = .next (s.haltNormal .haltEndOfMemory s.pcWord) := by
  simp [step, noStep?_of_running hr, hf, endOfMemory]

/-- The step on a fetched instruction (R132 to R134). -/
theorem step_of_instr {s : State} {w : Word} {i : Instr} (hr : s.runState = .running) (hf : fetch s = some w)
    (hd : decode w = .ok i) : step s = exec i s := by
  simp [step, noStep?_of_running hr, hf, hd]

/-- The step on a fetched word that is no instruction (R134). -/
theorem step_of_illegal {s : State} {w : Word} {r : DecodeReject} (hr : s.runState = .running)
    (hf : fetch s = some w) (hd : decode w = .error r) : step s = illegalWord r s := by
  simp [step, noStep?_of_running hr, hf, hd]

/-- An illegal word raises one of the execution errors (R83, R113). -/
theorem illegalWord_eq (r : DecodeReject) (s : State) :
    ∃ kind : HaltReason, kind.ofExecution ∧ illegalWord r s = .next (s.advancePc.raise kind s.pcWord) := by
  cases r with
  | aluOpcode f =>
    refine ⟨illegalAluReason Config.aluCheckOrder f, ?_, rfl⟩
    rcases illegalAluReason_cases Config.aluCheckOrder f with h | h
    · exact .inl h
    · exact .inr (.inl h)
  | dtOpcode f => exact ⟨.errDtOpcode, .inr (.inr rfl), illegalDt_eq f s⟩

/-- Everything a step can lead to from a RUNNING state. -/
inductive StepEffect (s : State) : State → Prop where
  | register (rd : RegIdx) (v : Word) (hf : s.pc.toNat < Config.memWords) :
      StepEffect s (s.advancePc.writeReg rd v)
  | memory (a : Operand2) (v : Word) (hf : s.pc.toNat < Config.memWords) :
      StepEffect s (s.advancePc.memWrite (dtAddr a) v)
  | error (kind : HaltReason) (hk : kind.ofExecution) (hf : s.pc.toNat < Config.memWords) :
      StepEffect s (s.advancePc.raise kind s.pcWord)
  | sentinel (hf : s.pc.toNat < Config.memWords) (hw : s.memory.read s.pc.toNat = Config.emptyWord) :
      StepEffect s (s.haltNormal .haltSentinel s.pcWord)
  | endOfMemory (hf : Config.memWords ≤ s.pc.toNat) :
      StepEffect s (s.haltNormal .haltEndOfMemory s.pcWord)

/-- HALT is decoded from the sentinel alone (R71). -/
theorem eq_emptyWord_of_decode_halt {w : Word} (h : decode w = .ok .halt) : w = Config.emptyWord := by
  unfold decode at h
  split at h
  · assumption
  · exfalso
    unfold decodeFields aluInstr? dtInstr? at h
    split at h
    · split at h
      · rename_i hi
        split at hi <;> simp_all
      · simp at h
    · split at h
      · rename_i hi
        split at hi <;> simp_all
      · simp at h

/-- A RUNNING state always steps to a next state, and this is all the step can do. -/
theorem step_cases {s : State} (hr : s.runState = .running) : ∃ t, step s = .next t ∧ StepEffect s t := by
  by_cases hf : s.pc.toNat < Config.memWords
  · have hw := fetch_of_lt hf
    cases hd : decode (s.memRead ⟨s.pc.toNat, hf⟩) with
    | error r =>
      rw [step_of_illegal hr hw hd]
      obtain ⟨kind, hk, he⟩ := illegalWord_eq r s
      exact ⟨_, he, .error kind hk hf⟩
    | ok i =>
      rw [step_of_instr hr hw hd]
      have he := exec_effect i s
      generalize exec i s = x at he ⊢
      cases he with
      | register rd v => exact ⟨_, rfl, .register rd v hf⟩
      | memory a v => exact ⟨_, rfl, .memory a v hf⟩
      | noRegister => exact ⟨_, rfl, .error .errRegOperand (.inl rfl) hf⟩
      | sentinel hi => exact ⟨_, rfl, .sentinel hf (eq_emptyWord_of_decode_halt (hi ▸ hd))⟩
  · exact ⟨_, step_of_no_fetch hr (fetch_of_ge (by omega)), .endOfMemory (by omega)⟩

/-- The inversion form: what led to a next state. -/
theorem step_next_cases {s t : State} (h : step s = .next t) : s.runState = .running ∧ StepEffect s t := by
  have hr := running_of_step_next h
  obtain ⟨t', ht, he⟩ := step_cases hr
  rw [h] at ht
  cases ht
  exact ⟨hr, he⟩

end Sys2Proof.Machine
end

