-- ==== Sys2Proof/Laws/Run.lean ====
section
/-! SUPPORT. Runs of several steps, unfolded once: no proof about a run unfolds the host's `run`. -/

namespace Sys2Proof.Machine

theorem runs_zero {s t : State} : Runs 0 s t ↔ s = t :=
  ⟨fun h => by cases h; rfl, fun h => by cases h; rfl⟩

/-- A run of `k + 1` steps is a step and then a run of `k`. -/
theorem runs_succ {k : Nat} {s t : State} : Runs (k + 1) s t ↔ ∃ u, step s = .next u ∧ Runs k u t := by
  have e := Host.Core.run.eq_2 Sys2Proof.core s k
  rw [show Sys2Proof.core.step s = step s from rfl] at e
  unfold Runs
  rw [e]
  cases step s with
  | next u => exact ⟨fun h => ⟨u, rfl, h⟩, fun ⟨_, hu, h⟩ => by cases hu; exact h⟩
  | fault r => exact ⟨fun h => (by cases h), fun ⟨_, hu, _⟩ => by cases hu⟩
  | refused r => exact ⟨fun h => (by cases h), fun ⟨_, hu, _⟩ => by cases hu⟩

/-- Runs compose. -/
theorem Runs.trans {k l : Nat} {s t u : State} (h : Runs k s t) (h' : Runs l t u) : Runs (k + l) s u := by
  induction k generalizing s with
  | zero =>
    rw [runs_zero] at h
    simpa [h] using h'
  | succ k ih =>
    obtain ⟨v, hv, hr⟩ := runs_succ.1 h
    have e : k + 1 + l = (k + l) + 1 := by omega
    rw [e, runs_succ]
    exact ⟨v, hv, ih hr⟩

/-- Two runs of the same length from the same state end in the same state. -/
theorem Runs.unique {k : Nat} {s t u : State} (h : Runs k s t) (h' : Runs k s u) : t = u := by
  unfold Runs at h h'
  rw [h] at h'
  cases h'
  rfl

/-- A state that a run goes on from is RUNNING. -/
theorem Runs.running {k l : Nat} {s t u : State} (h : Runs k s t) (h' : Runs l s u) (hlt : k < l) :
    t.runState = .running := by
  induction k generalizing s l with
  | zero =>
    obtain ⟨l, rfl⟩ : ∃ m, l = m + 1 := ⟨l - 1, by omega⟩
    obtain ⟨v, hv, _⟩ := runs_succ.1 h'
    rw [runs_zero] at h
    exact h ▸ running_of_step_next hv
  | succ k ih =>
    obtain ⟨l, rfl⟩ : ∃ m, l = m + 1 := ⟨l - 1, by omega⟩
    obtain ⟨v, hv, hr⟩ := runs_succ.1 h
    obtain ⟨v', hv', hr'⟩ := runs_succ.1 h'
    rw [hv] at hv'
    cases hv'
    exact ih hr hr' (by omega)

end Sys2Proof.Machine
end

