-- ==== Sys2Proof/Tests/Slice0.lean ====
section
/-! SUPPORT. The model's own tests. Expected results are the spec's: words and results come from the vectors V<n> of
spec/95_test_vectors.md and the examples of the instructions' rules. The witnesses at the end meet the
hypotheses of each statement. -/

namespace Sys2Proof.Tests

open Sys2Proof.Machine

/-- A RUNNING state at `pc = 0` with `w` at `memory[0]`, as the vectors' conventions have it, and the registers and
words named. -/
def running (w : Word) (regs : List (RegIdx × Word)) (mem : List (Addr × Word)) : State :=
  let s := { State.reset with runState := .running }.memWrite 0 w
  mem.foldl (fun s c => s.memWrite c.1 c.2) (regs.foldl (fun s c => s.writeReg c.1 c.2) s)

/-- Does the step lead to a next state with this property? -/
def after (s : State) (p : State → Bool) : Bool :=
  match step s with
  | .next t    => p t
  | .fault _   => false
  | .refused _ => false

/-- Does the step end in this error at fetch address 0, with this register unwritten? -/
def errs (s : State) (k : HaltReason) (r : RegIdx) (v : Word) : Bool :=
  after s fun t => t.runState == .haltedError && t.haltReason == k && t.haltInfo == 0 && t.pc == 1 && t.readReg r == v

/-! ### WellFormed: each check refuses an ill-formed term, and lets the boundary pass -/

theorem test_wellFormed_refuses_add_r8 : ¬ WellFormed (.add 0 8 0) := by decide
theorem test_wellFormed_refuses_sub_r15 : ¬ WellFormed (.sub 0 15 0) := by decide
theorem test_wellFormed_refuses_and_r9 : ¬ WellFormed (.and 0 9 0) := by decide
theorem test_wellFormed_refuses_or_r12 : ¬ WellFormed (.or 0 12 0) := by decide
theorem test_wellFormed_refuses_xor_r8 : ¬ WellFormed (.xor 0 8 0) := by decide
theorem test_wellFormed_passes_r7_and_immediate_15 : WellFormed (.add 0 7 0) ∧ WellFormed (.addi 0 15 0) := by decide

/-! ### Decoding: words written out from the spec's encodings -/

-- R86: 0 0000 0 DDD AAAA BBB, V10.
theorem test_decode_add : decode 0b0_0000_0_001_0010_011#16 = .ok (.add 1 2 3) := by decide
-- R87: 0 0000 1 DDD nnnn BBB, V15.
theorem test_decode_addi : decode 0b0_0000_1_001_1111_011#16 = .ok (.addi 1 15 3) := by decide
-- R88, V20.
theorem test_decode_sub : decode 0b0_0001_0_001_0010_011#16 = .ok (.sub 1 2 3) := by decide
-- R89, V24.
theorem test_decode_subi : decode 0b0_0001_1_001_0000_011#16 = .ok (.subi 1 0 3) := by decide
-- R90, V27.
theorem test_decode_and : decode 0b0_0010_0_100_0101_110#16 = .ok (.and 4 5 6) := by decide
-- R91, V29.
theorem test_decode_andi : decode 0b0_0010_1_100_1001_110#16 = .ok (.andi 4 9 6) := by decide
-- R92, V31.
theorem test_decode_or : decode 0b0_0011_0_111_0000_001#16 = .ok (.or 7 0 1) := by decide
-- R93, V33.
theorem test_decode_ori : decode 0b0_0011_1_111_1111_000#16 = .ok (.ori 7 15 0) := by decide
-- R94, V35.
theorem test_decode_xor : decode 0b0_0100_0_010_0010_010#16 = .ok (.xor 2 2 2) := by decide
-- R95, V37.
theorem test_decode_xori : decode 0b0_0100_1_011_1010_011#16 = .ok (.xori 3 10 3) := by decide
-- R114, V44: the ignored bits are kept.
theorem test_decode_load : decode 0b1_0101_1_101_0010_111#16 = .ok (.load 1 5 2 7) := by decide
-- R115, V46.
theorem test_decode_store : decode 0b1_0110_0_011_1111_000#16 = .ok (.store 0 3 15 0) := by decide
-- R132, V64.
theorem test_decode_halt : decode 0b1_1111_1_111_1111_111#16 = .ok .halt := by decide
-- V62, V65, V39c: opcode 5..15 with t_bit 0.
theorem test_decode_rejects_alu : decode 0x2800#16 = .error (.aluOpcode ⟨0, 5, 0, 0, 0, 0⟩)
    ∧ decode 0x5555#16 = .error (.aluOpcode ⟨0, 10, 1, 2, 10, 5⟩) := by decide
-- V49b, V49c, V49d: the words beside LOAD, STORE and the sentinel.
theorem test_decode_rejects_dt : decode 0xA7FF#16 = .error (.dtOpcode ⟨1, 4, 1, 7, 15, 7⟩)
    ∧ decode 0xB800#16 = .error (.dtOpcode ⟨1, 7, 0, 0, 0, 0⟩)
    ∧ decode 0xFFFE#16 = .error (.dtOpcode ⟨1, 15, 1, 7, 15, 6⟩) := by decide
-- V66: 0xAAAA is LOAD r5, [5] with bits 2:0 ignored; the host's decoder gives the same.
theorem test_decodeTableWord : decodeTableWord 16 0xAAAA = some (.load 0 5 5 2)
    ∧ decodeTableWord 16 0x8000 = none := by decide
-- R74: LI r5, #9 is CLR r5, then ORI r5, #9, r5.
theorem test_assemble_li : assemble (.li 5 9) = [0x22AD#16, 0x1ECD#16] := by decide

/-! ### One step of each instruction -/

-- V11: the sum wraps.
theorem test_step_add_wraps : after (running 0x0093 [(2, 0xFFFF), (3, 0x0002)] []) (·.readReg 1 == 0x0001) = true := by
  decide
-- V13: the destination is both sources.
theorem test_step_add_same_register : after (running 0x02AD [(5, 0x8001)] []) (·.readReg 5 == 0x0002) = true := by
  decide
-- V15: immediate 15 is 15, not -1.
theorem test_step_addi : after (running 0x04FB [(3, 0x7FF5)] []) (·.readReg 1 == 0x8004) = true := by decide
-- V21: first minus second, wrapping.
theorem test_step_sub : after (running 0x0893 [(2, 3), (3, 5)] []) (·.readReg 1 == 0xFFFE) = true := by decide
-- V26: immediate minus register.
theorem test_step_subi : after (running 0x0F46 [(6, 0xFFFF)] []) (·.readReg 6 == 0x0009) = true := by decide
-- V27.
theorem test_step_and : after (running 0x122E [(5, 0xF0F0), (6, 0xFF00)] []) (·.readReg 4 == 0xF000) = true := by decide
-- V29.
theorem test_step_andi : after (running 0x164E [(6, 0xFFFF)] []) (·.readReg 4 == 0x0009) = true := by decide
-- V31.
theorem test_step_or : after (running 0x1B81 [(0, 0x0F00), (1, 0x00F0)] []) (·.readReg 7 == 0x0FF0) = true := by decide
-- V34: the destination is the source.
theorem test_step_ori : after (running 0x1CC1 [(1, 0xFFF0)] []) (·.readReg 1 == 0xFFF8) = true := by decide
-- V36.
theorem test_step_xor : after (running 0x218A [(1, 0xAAAA), (2, 0xFFFF)] []) (·.readReg 3 == 0x5555) = true := by decide
-- V37.
theorem test_step_xori : after (running 0x25D3 [(3, 0xFFFF)] []) (·.readReg 3 == 0xFFF5) = true := by decide
-- V42: an EMPTY slot loads as data.
theorem test_step_load_empty : after (running 0xAA90 [(5, 9)] []) (·.readReg 5 == 0xFFFF) = true := by decide
-- V44: bits 10 and 2:0 are ignored.
theorem test_step_load_ignored_bits : after (running 0xAE97 [] [(2, 0x0042)]) (·.readReg 5 == 0x0042) = true := by decide
-- V46: the highest address.
theorem test_step_store : after (running 0xB1F8 [(3, 0x1234)] []) (·.memRead 15 == 0x1234) = true := by decide
-- V48: the sentinel stored as data leaves the slot EMPTY, and the memory lists the one word at 0.
theorem test_step_store_empty : after (running 0xB110 [(2, 0xFFFF)] [(2, 0x1234)])
    (·.memory == [(0, 0xB110#16)]) = true := by decide
-- V70, R132: the PC keeps the sentinel's address.
theorem test_step_halt : after (running 0xFFFF [] []) (fun t => t.runState == .haltedNormal
    && t.haltReason == .haltSentinel && t.haltInfo == 0 && t.pc == 0) = true := by decide

/-! ### The errors, the end of memory and the host port -/

-- V39a.
theorem test_step_reg_operand : errs (running 0x0060 [(0, 7)] []) .errRegOperand 0 7 = true := by decide
-- V49a.
theorem test_step_dt_opcode : errs (running 0x8000 [] []) .errDtOpcode 0 0 = true := by decide
-- V39c, V39d: the reason does not depend on alu_check_order.
theorem test_alu_opcode_reason : ∀ order, illegalAluReason order (splitFields 0x2893) = .errAluOpcode
    ∧ illegalAluReason order (splitFields 0x7FC0) = .errAluOpcode := by
  intro order
  cases order <;> decide
-- V39e: both values of alu_check_order.
theorem test_alu_check_order : illegalAluReason .operandFirst (splitFields 0x2860) = .errRegOperand
    ∧ illegalAluReason .opcodeFirst (splitFields 0x2860) = .errAluOpcode := by decide
-- V73's last step: PC 512 halts at the end of memory.
theorem test_step_end_of_memory : after { running 0 [] [] with pc := 512 } (fun t => t.runState == .haltedNormal
    && t.haltReason == .haltEndOfMemory && t.haltInfo == 512 && t.pc == 512) = true := by decide
-- V75.
theorem test_load_address_error : (State.reset.hostAct (.loadAndStart [0x0488] [(3, 5), (600, 1), (700, 2)])
    : State) = { State.reset with memory := [(0, 0x0488#16), (3, 5#16)], runState := .haltedError,
                                  haltReason := .errLoadAddress, haltInfo := 2 } := by decide
-- V76: data alone is the program.
theorem test_load_data_only : (State.reset.hostAct (.loadAndStart [] [(0, 0x0498)])) = running 0x0498 [] [] := by decide
-- The host's question, on a table word, straight after reset: ADDI r1, #3, r0 of V76.
theorem test_withFetchWord : after (State.reset.withFetchWord 16 0x0498) (·.readReg 1 == 3) = true := by decide
-- The fetch place exists at the end of memory too.
theorem test_withFetchWord_at_the_end : after ({ running 0 [] [] with pc := 512 }.withFetchWord 16 0x0498)
    (fun t => t.readReg 1 == 3 && t.pc == 1) = true := by decide

/-! ### Witnesses: the hypotheses of each statement are met -/

theorem witness_StepsOnlyWhileRunningAndOnlyResetLeavesAHalt :
    (∃ t, step (running 0 [] []) = .next t)
    ∧ { State.reset with runState := .haltedNormal }.Halted ∧ { State.reset with runState := .haltedError }.Halted
    ∧ HostAction.sourceMissing ≠ .reset := ⟨⟨_, rfl⟩, by decide, by decide, by decide⟩

theorem witness_RunningAlwaysStepsOthersAreStuck :
    (running 0 [] []).runState = .running ∧ State.reset.runState = .load
    ∧ { State.reset with runState := .haltedError }.Halted := by decide

theorem witness_HostActionsOutsideTheirRunStatesChangeNothing :
    (HostAction.loadAndStart [] [] ≠ .reset ∧ (running 0 [] []).runState ≠ .load) ∧ State.reset.runState = .load := by
  decide

theorem witness_LoadWritesProgramThenDataAndStarts :
    ([0x1800#16] : List Word).length ≤ 512 ∧ ∀ c ∈ ([(511, 5)] : List (Word × Word)), c.1.toNat < 512 := by simp

theorem witness_ProgramTooLongFailsTheLoad : 512 < (List.replicate 513 (0x1800#16 : Word)).length := by
  rw [List.length_replicate]
  decide

theorem witness_DataAddressOutOfMemoryFailsTheLoad :
    ([] : List Word).length ≤ 512 ∧ (∀ c ∈ ([(511, 5)] : List (Word × Word)), c.1.toNat < 512)
    ∧ 512 ≤ (512#16 : Word).toNat ∧ ([(511, 5)] : List (Word × Word)).length + 1 < 65536 := by simp

theorem witness_HostObservesRegistersOnlyAfterANormalHalt :
    { State.reset with runState := .haltedNormal }.runState = .haltedNormal
    ∧ { State.reset with runState := .haltedError }.runState = .haltedError ∧ ¬ State.reset.Halted := by decide

theorem witness_DecodedWordsReencodeToThemselves :
    decode 0xA847#16 = .ok (.load 0 0 8 7)
    ∧ decode 0x2800#16 = .error (.aluOpcode ⟨0, 5, 0, 0, 0, 0⟩)
    ∧ decode 0xFFFE#16 = .error (.dtOpcode ⟨1, 15, 1, 7, 15, 6⟩) := by decide

theorem witness_DecoderFollowsTheOpcodeTable : ⟨"HALT", 0xFFFF, 0xFFFF⟩ ∈ opcodeTable := by decide

/-- The five register forms' two clauses at the boundary of operand2, and XOR's clause on one register. -/
theorem witness_registerForms :
    (7 : Operand2).toNat ≤ 7 ∧ 7 < (8 : Operand2).toNat ∧ (7 : Operand2).toNat = (7 : RegIdx).toNat := by decide

theorem witness_IllegalAluWordsRaise :
    ((running 0x2800 [] []).runState = .running ∧ fetch (running 0x2800 [] []) = some 0x2800#16
      ∧ 0x2800 ≤ (0x2800#16 : Word).toNat ∧ (0x2800#16 : Word).toNat ≤ 0x7FFF)
    ∧ ((running 0x7FFF [] []).runState = .running ∧ fetch (running 0x7FFF [] []) = some 0x7FFF#16
      ∧ 0x2800 ≤ (0x7FFF#16 : Word).toNat ∧ (0x7FFF#16 : Word).toNat ≤ 0x7FFF) := by decide

theorem witness_IllegalDtWordsRaise :
    ((running 0x8000 [] []).runState = .running ∧ fetch (running 0x8000 [] []) = some 0x8000#16
      ∧ 0x8000 ≤ (0x8000#16 : Word).toNat ∧ (0x8000#16 : Word).toNat ≤ 0xA7FF)
    ∧ ((running 0xFFFE [] []).runState = .running ∧ fetch (running 0xFFFE [] []) = some 0xFFFE#16
      ∧ 0xB800 ≤ (0xFFFE#16 : Word).toNat ∧ (0xFFFE#16 : Word).toNat ≤ 0xFFFE) := by decide

theorem witness_IgnoredBitsOfDataTransferWordsHaveNoEffect :
    (splitFields 0xA840).tBit = 1#1 ∧ (splitFields 0xA840).opcode = 5#4 ∧ (splitFields 0xA847).tBit = 1#1
    ∧ (splitFields 0xA847).opcode = (splitFields 0xA840).opcode
    ∧ (splitFields 0xA847).operand1 = (splitFields 0xA840).operand1
    ∧ (splitFields 0xA847).operand2 = (splitFields 0xA840).operand2
    ∧ (splitFields 0xB1F8).opcode = 6#4 := by decide

theorem witness_StepsWriteOnlyTheFirstSixteenWords :
    (∃ t, step (running 0xB1F8 [] []) = .next t) ∧ 16 ≤ (16 : Addr).val := ⟨⟨_, rfl⟩, by decide⟩

theorem witness_InstructionsReadOnlyTheFirstSixteenWords :
    ∀ a : Nat, a < 16 → Memory.read [(16, 1#16)] a = State.reset.memory.read a := by decide

theorem witness_CanonicalMemoriesAreEqualWhenTheirWordsAre :
    Memory.wf [(511, 1#16)] = true ∧ ∀ a : Nat, a < 512 → Memory.read [(511, 1#16)] a = Memory.read [(511, 1#16)] a :=
  ⟨by decide, fun _ _ => rfl⟩

theorem witness_StoringEmptyUndoesAWrite :
    (running 0 [] []).memory.wf = true ∧ (running 0 [] []).memRead 511 = 0xFFFF#16 := by decide

/-- At the boundary: a STORE fetched from 14 into 15. -/
theorem witness_StoreIsSeenByTheNextFetch :
    let s := { running 0 [(3, 0x1800)] [(14, 0xB1F8)] with pc := 14 }
    s.runState = .running ∧ fetch s = some 0xB1F8#16 ∧ decode 0xB1F8#16 = .ok (.store 0 3 15 0)
    ∧ (15 : Operand2).toNat = s.pc.toNat + 1 ∧ decode (s.readReg 3) = .ok (.or 0 0 0) := by decide

theorem witness_EndOfMemoryHaltsNormally :
    let s := { running 0 [] [] with pc := 512 }
    s.runState = .running ∧ 512 ≤ s.pc.toNat ∧ s.pc = 512#10 := by decide

theorem witness_SentinelHaltsNormally :
    (running 0xFFFF [] []).runState = .running ∧ fetch (running 0xFFFF [] []) = some 0xFFFF#16 := by decide

theorem witness_StepRunsTheDecodedInstruction :
    let s := { running 0 [] [(511, 0x0489)] with pc := 511 }
    s.pc.toNat = (511 : Addr).val ∧ s.runState = .running ∧ fetch s = some 0x0489#16
    ∧ decode 0x0489#16 = .ok (.addi 1 1 1) := by decide

theorem witness_PcStaysOrGrowsByOne :
    (∃ t, step (running 0xFFFF [] []) = .next t) ∧ ∃ t, step (running 0x1800 [] []) = .next t := ⟨⟨_, rfl⟩, ⟨_, rfl⟩⟩

theorem witness_InstructionsFailExactlyOnAMissingRegister :
    ¬ WellFormed (.sub 0 8 0) ∧ WellFormed (.sub 0 7 0) := by decide

theorem witness_ExecutionErrorsArePrecise :
    ∃ t, step (running 0x0060 [] []) = .next t ∧ t.runState = .haltedError := ⟨_, rfl, rfl⟩

theorem witness_StepRefinesThePseudocode : (running 0 [] []).runState = .running := by decide

theorem witness_PlacedWordIsTheNextInstruction : decode 0xB1F8#16 = .ok (.store 0 3 15 0) := by decide

/-- A RUNNING state that meets the invariant, and steps. -/
theorem witness_StepKeepsTheInvariant :
    Invariant (State.reset.hostAct (.loadAndStart [0x1800] []))
    ∧ ∃ t, step (State.reset.hostAct (.loadAndStart [0x1800] [])) = .next t :=
  ⟨⟨by decide, by decide, ⟨rfl, rfl⟩⟩, ⟨_, rfl⟩⟩

theorem witness_HostActionsKeepTheInvariant : Invariant State.reset := ⟨rfl, by decide, rfl⟩

theorem witness_ReachableStatesMeetTheInvariant : Reachable (State.reset.hostAct .sourceMissing) := .host _ .reset

theorem witness_EveryRunHalts :
    ((running 0 [] []).runState = .running ∧ (running 0 [] []).pc.toNat ≤ 512)
    ∧ { running 0 [] [] with pc := 512 }.pc.toNat ≤ 512 := by decide

theorem witness_RunHaltsNormallyIffItReachesTheSentinelOrTheEnd :
    (running 0 [] []).runState = .running ∧ (running 0 [] []).pc = 0#10 := by decide

end Sys2Proof.Tests
end

/-! PROOFS. The six fields of a word: what joining them gives, as bits and as a number (30_encoding.md R61 to R63). -/

namespace Sys2Proof.Proofs

/-- Concatenation as a number: the upper part weighs `2 ^ (width of the lower part)`. -/
theorem toNat_append_eq_mul_add {m n : Nat} (x : BitVec m) (y : BitVec n) :
    (x ++ y).toNat = x.toNat * 2 ^ n + y.toNat := by
  rw [BitVec.toNat_append, ← Nat.shiftLeft_add_eq_or_of_lt y.isLt, Nat.shiftLeft_eq]

/-- R63 as a number: the word of any six fields is their sum, each at the weight of its lowest bit. -/
theorem joinFields_toNat (f : Fields) :
    (joinFields f).toNat = f.tBit.toNat * 2 ^ 15 + f.opcode.toNat * 2 ^ 11 + f.iBit.toNat * 2 ^ 10
      + f.operand1.toNat * 2 ^ 7 + f.operand2.toNat * 2 ^ 3 + f.operand3.toNat := by
  simp only [joinFields, toNat_append_eq_mul_add]
  omega

/-- R63: the six fields are adjacent slices that cover bits 15 to 0, so rejoining them merges slice after slice until
the whole word stands again. -/
@[simp] theorem joinFields_splitFields (w : Word) : joinFields (splitFields w) = w := by
  simp only [joinFields, splitFields]
  rw [BitVec.extractLsb'_append_extractLsb'_eq_extractLsb' (by rfl),
    BitVec.extractLsb'_append_extractLsb'_eq_extractLsb' (by rfl),
    BitVec.extractLsb'_append_extractLsb'_eq_extractLsb' (by rfl),
    BitVec.extractLsb'_append_extractLsb'_eq_extractLsb' (by rfl),
    BitVec.extractLsb'_append_extractLsb'_eq_extractLsb' (by rfl)]
  exact BitVec.extractLsb'_eq_self

/-- Settles O10: the word is its rejoined fields, and rejoined fields are their weighted sum. -/
theorem fieldsRejoinToTheWord : Obligations.FieldsRejoinToTheWord := fun w =>
  ⟨joinFields_splitFields w, by rw [← joinFields_toNat, joinFields_splitFields]⟩

end Sys2Proof.Proofs

/-! PROOFS. The register forms of the ALU (41_alu.md R82 to R86, R90, R92, R94): what all five operations share, said
once over the operation, and then each rule's own result. -/

namespace Sys2Proof.Proofs

open Sys2Proof.Machine

/-- R134: the register-form instruction of each of the five operations runs the one register form. -/
theorem exec_registerInstr (op : AluOp) (rd : RegIdx) (ra : Operand2) (rb : RegIdx) (s : State) :
    exec (op.registerInstr rd ra rb) s = aluRegisterForm op rd ra rb s := by
  cases op <;> rfl

/-- R84, R85: with a register that exists, a register form writes its operation's result and nothing else. -/
theorem registerInstr_completes_of_le (op : AluOp) (rd : RegIdx) {ra : Operand2} (rb : RegIdx) (s : State)
    (h : ra.toNat ≤ 7) :
    Completes (op.registerInstr rd ra rb) s
      (WritesOnlyRegister rd (aluResult op (s.readReg (ra.setWidth 3)) (s.readReg rb)) s) :=
  ⟨_, by rw [exec_registerInstr, aluRegisterForm_of_le op rd rb s h], writesOnlyRegister_of_write rd _ s⟩

/-- R82: with a register that does not exist, a register form raises ERR_REG_OPERAND and writes nothing. -/
theorem registerInstr_raises_of_gt (op : AluOp) (rd : RegIdx) {ra : Operand2} (rb : RegIdx) (s : State)
    (h : 7 < ra.toNat) :
    Completes (op.registerInstr rd ra rb) s (RaisesError .errRegOperand s) :=
  ⟨_, by rw [exec_registerInstr, aluRegisterForm_of_gt op rd rb s h], raisesError_of_raise _ s⟩

/-- R86, R96: the ADD result is the sum of the two numbers modulo 2^16. -/
theorem aluResult_add_eq_ofNat_mod (x y : Word) :
    aluResult .add x y = BitVec.ofNat 16 ((x.toNat + y.toNat) % 65536) :=
  BitVec.eq_of_toNat_eq (by simp [aluResult])

/-- R94: a word XOR itself is 0. -/
theorem aluResult_xor_self (x : Word) : aluResult .xor x x = 0#16 := BitVec.xor_self

/-- R68: an operand2 with the number of a register is one of 0..7, and names that register. -/
theorem operand2_names_register {ra : Operand2} {rb : RegIdx} (h : ra.toNat = rb.toNat) :
    ra.toNat ≤ 7 ∧ ra.setWidth 3 = rb := by
  have hrb := rb.isLt
  refine ⟨by omega, BitVec.eq_of_toNat_eq ?_⟩
  rw [BitVec.toNat_setWidth, h, Nat.mod_eq_of_lt hrb]

/-- Settles O17: the register form at ADD, with its result read as a sum modulo 2^16. -/
theorem addRegisterForm : Obligations.AddRegisterForm := fun s rd ra rb =>
  ⟨rfl, fun h => by
    rw [← aluResult_add_eq_ofNat_mod]
    exact registerInstr_completes_of_le .add rd rb s h,
   registerInstr_raises_of_gt .add rd rb s⟩

/-- Settles O19: the register form at AND. -/
theorem andRegisterForm : Obligations.AndRegisterForm := fun s rd _ rb =>
  ⟨rfl, registerInstr_completes_of_le .and rd rb s, registerInstr_raises_of_gt .and rd rb s⟩

/-- Settles O20: the register form at OR. -/
theorem orRegisterForm : Obligations.OrRegisterForm := fun s rd _ rb =>
  ⟨rfl, registerInstr_completes_of_le .or rd rb s, registerInstr_raises_of_gt .or rd rb s⟩

/-- The corner case of R94: XOR of a register with itself clears the destination. -/
theorem xor_same_register_writes_zero (rd : RegIdx) {ra : Operand2} {rb : RegIdx} (s : State)
    (h : ra.toNat = rb.toNat) : Completes (.xor rd ra rb) s (WritesOnlyRegister rd 0#16 s) := by
  obtain ⟨hle, hreg⟩ := operand2_names_register h
  have hxor := registerInstr_completes_of_le .xor rd rb s hle
  rwa [hreg, aluResult_xor_self] at hxor

/-- Settles O21: the register form at XOR, and its corner case of equal operands. -/
theorem xorRegisterForm : Obligations.XorRegisterForm := fun s rd _ rb =>
  ⟨rfl, registerInstr_completes_of_le .xor rd rb s, xor_same_register_writes_zero rd s,
   registerInstr_raises_of_gt .xor rd rb s⟩

end Sys2Proof.Proofs

/-! PROOFS. The sequencer (43_sequencer.md R131, R132, R138): the two normal halts, and how a whole run ends. -/

namespace Sys2Proof.Proofs

open Sys2Proof.Machine

/-! ### The two normal halts -/

/-- Settles O36: the fetch reads nothing at 512 and beyond, so the step is the end-of-memory halt. -/
theorem endOfMemoryHaltsNormally : Obligations.EndOfMemoryHaltsNormally := fun s hr hpc =>
  ⟨_, step_of_no_fetch hr (fetch_of_ge hpc), haltsNormally_of_halt _ s, fun h => by simp [State.pcWord, h]⟩

/-- R132: HALT is the sentinel's halt, in every state. -/
theorem exec_halt_completes (s : State) : Completes .halt s (HaltsNormally .haltSentinel s) :=
  ⟨_, rfl, haltsNormally_of_halt _ s⟩

/-- R71: the sentinel decodes to HALT. -/
theorem decode_emptyWord : decode Config.emptyWord = .ok .halt := by simp [decode]

/-- Settles O37: HALT halts, and the sentinel is fetched as HALT. -/
theorem sentinelHaltsNormally : Obligations.SentinelHaltsNormally :=
  ⟨exec_halt_completes, fun s hr hf => by
    rw [step_of_instr hr hf decode_emptyWord]
    exact exec_halt_completes s⟩

/-! ### One step of a run: at the sentinel or 512, and before -/

/-- R131, R132: at 512 and at the sentinel the step halts normally. -/
theorem step_halts_at_end {t : State} (hr : t.runState = .running)
    (hend : t.pc.toNat = 512 ∨ fetch t = some 0xFFFF#16) :
    ∃ u, step t = .next u ∧ u.runState = .haltedNormal := by
  rcases hend with hpc | hf
  · obtain ⟨u, hu, hhalt, -⟩ := endOfMemoryHaltsNormally t hr hpc.ge
    exact ⟨u, hu, hhalt.runState⟩
  · obtain ⟨u, hu, hhalt⟩ := sentinelHaltsNormally.2 t hr hf
    exact ⟨u, hu, hhalt.runState⟩

/-- R133: below 512 the advance of the PC is exact. -/
theorem pc_add_one_toNat {t : State} (hpc : t.pc.toNat < 512) : (t.pc + 1#10).toNat = t.pc.toNat + 1 := by
  rw [BitVec.toNat_add_of_lt (by simp; omega)]
  rfl

/-- R133, R134: below 512, on a word that is not the sentinel, the step goes on with the next address or ends the run
in error. -/
theorem step_before_end {t : State} (hr : t.runState = .running) (hpc : t.pc.toNat < 512)
    (hf : fetch t ≠ some 0xFFFF#16) :
    ∃ u, step t = .next u ∧
      ((u.runState = .running ∧ u.pc.toNat = t.pc.toNat + 1) ∨ u.runState = .haltedError) := by
  obtain ⟨u, hu, heffect⟩ := step_cases hr
  refine ⟨u, hu, ?_⟩
  cases heffect with
  | register rd v _ => exact .inl ⟨hr, pc_add_one_toNat hpc⟩
  | memory a v _ => exact .inl ⟨hr, pc_add_one_toNat hpc⟩
  | error kind _ _ => exact .inr rfl
  | sentinel hlt hw => exact absurd ((fetch_of_lt hlt).trans (congrArg some hw)) hf
  | endOfMemory hge => exact absurd hge hpc.not_ge

/-! ### Whole runs -/

/-- A run that has gone on for one more step. -/
theorem runs_snoc {k : Nat} {s t u : State} (h : Runs k s t) (hstep : step t = .next u) : Runs (k + 1) s u :=
  Runs.trans h (runs_succ.2 ⟨u, hstep, runs_zero.2 rfl⟩)

theorem not_running_of_halted {t : State} (h : t.Halted) : t.runState ≠ .running := by
  rcases h with h | h <;> simp [h]

/-- R155: a run does not go on from a halt, so it reaches one halted state at most. -/
theorem runs_halted_unique {k l : Nat} {s t u : State} (ht : Runs k s t) (hu : Runs l s u) (hth : t.Halted)
    (huh : u.Halted) : t = u := by
  rcases Nat.lt_trichotomy k l with hlt | rfl | hlt
  · exact absurd (Runs.running ht hu hlt) (not_running_of_halted hth)
  · exact Runs.unique ht hu
  · exact absurd (Runs.running hu ht hlt) (not_running_of_halted huh)

/-- R138: the words at `0..k-1`, each as it stands when it is fetched, are not the sentinel and are executed without a
fatal condition, and lead from `s` to `t`. -/
structure ExecutesTo (s : State) (k : Nat) (t : State) : Prop where
  runs    : Runs k s t
  running : t.runState = .running
  pc      : t.pc.toNat = k
  earlier : ∀ j : Nat, j < k → ∃ u : State, Runs j s u ∧ u.runState = .running ∧ u.pc.toNat = j
              ∧ fetch u ≠ some 0xFFFF#16

/-- R138: the run comes to the sentinel or to 512 with everything before it executed. -/
def ReachesTheEnd (s : State) : Prop :=
  ∃ (k : Nat) (t : State), k ≤ 512 ∧ ExecutesTo s k t ∧ (k = 512 ∨ fetch t = some 0xFFFF#16)

/-- The run from `s` ends in the halted state `r`. -/
def RunEndsIn (s : State) (r : RunState) : Prop := ∃ (n : Nat) (t : State), Runs n s t ∧ t.runState = r

/-- `ReachesTheEnd` is what `Obligations.RunHaltsNormallyIffItReachesTheSentinelOrTheEnd` writes out. -/
theorem reachesTheEnd_iff {s : State} : ReachesTheEnd s ↔
    ∃ (k : Nat) (t : State), k ≤ 512 ∧ Runs k s t ∧ t.runState = .running ∧ t.pc.toNat = k
      ∧ (k = 512 ∨ fetch t = some 0xFFFF#16)
      ∧ ∀ j : Nat, j < k → ∃ u : State, Runs j s u ∧ u.runState = .running ∧ u.pc.toNat = j
          ∧ fetch u ≠ some 0xFFFF#16 :=
  ⟨fun ⟨k, t, hk, ⟨hruns, hr, hpc, hearlier⟩, hend⟩ => ⟨k, t, hk, hruns, hr, hpc, hend, hearlier⟩,
   fun ⟨k, t, hk, hruns, hr, hpc, hend, hearlier⟩ => ⟨k, t, hk, ⟨hruns, hr, hpc, hearlier⟩, hend⟩⟩

theorem ExecutesTo.zero {s : State} (hr : s.runState = .running) (hpc : s.pc = 0#10) : ExecutesTo s 0 s where
  runs := runs_zero.2 rfl
  running := hr
  pc := by rw [hpc]; rfl
  earlier j hj := absurd hj j.not_lt_zero

theorem ExecutesTo.succ {s t u : State} {k : Nat} (h : ExecutesTo s k t) (hf : fetch t ≠ some 0xFFFF#16)
    (hstep : step t = .next u) (hr : u.runState = .running) (hpc : u.pc.toNat = t.pc.toNat + 1) :
    ExecutesTo s (k + 1) u where
  runs := runs_snoc h.runs hstep
  running := hr
  pc := hpc.trans (congrArg (· + 1) h.pc)
  earlier j hj := by
    rcases Nat.lt_succ_iff_lt_or_eq.1 hj with hlt | rfl
    · exact h.earlier j hlt
    · exact ⟨t, h.runs, h.running, h.pc, hf⟩

/-- The induction over the run: up to each address the run is still on its way, or it is decided. -/
theorem executesTo_or_decided {s : State} (hr : s.runState = .running) (hpc : s.pc = 0#10) :
    ∀ k : Nat, k ≤ 512 → (∃ t, ExecutesTo s k t) ∨ ReachesTheEnd s ∨ RunEndsIn s .haltedError
  | 0, _ => .inl ⟨s, .zero hr hpc⟩
  | k + 1, hk => by
    rcases executesTo_or_decided hr hpc k (by omega) with ⟨t, ht⟩ | hdecided
    · by_cases hf : fetch t = some 0xFFFF#16
      · exact .inr (.inl ⟨k, t, by omega, ht, .inr hf⟩)
      · obtain ⟨u, hstep, ⟨hur, hupc⟩ | herror⟩ := step_before_end ht.running (by rw [ht.pc]; omega) hf
        · exact .inl ⟨u, ht.succ hf hstep hur hupc⟩
        · exact .inr (.inr ⟨k + 1, u, runs_snoc ht.runs hstep, herror⟩)
    · exact .inr hdecided

/-- R138: at 512 at the latest the run is decided. -/
theorem reachesTheEnd_or_error {s : State} (hr : s.runState = .running) (hpc : s.pc = 0#10) :
    ReachesTheEnd s ∨ RunEndsIn s .haltedError := by
  rcases executesTo_or_decided hr hpc 512 le_rfl with ⟨t, ht⟩ | hdecided
  · exact .inl ⟨512, t, le_rfl, ht, .inl rfl⟩
  · exact hdecided

/-- R131, R132: the step after the sentinel or 512 is reached ends the run normally. -/
theorem ReachesTheEnd.haltsNormally {s : State} (h : ReachesTheEnd s) : RunEndsIn s .haltedNormal := by
  obtain ⟨k, t, -, ht, hend⟩ := h
  obtain ⟨u, hstep, hu⟩ := step_halts_at_end ht.running (hend.imp_left ht.pc.trans)
  exact ⟨k + 1, u, runs_snoc ht.runs hstep, hu⟩

/-- A run has one end. -/
theorem not_error_of_haltsNormally {s : State} (hn : RunEndsIn s .haltedNormal) : ¬ RunEndsIn s .haltedError := by
  obtain ⟨k, t, hruns, ht⟩ := hn
  rintro ⟨l, u, hruns', hu⟩
  have htu : t = u := runs_halted_unique hruns hruns' (.inl ht) (.inr hu)
  simp [← htu, ht] at hu

/-- Settles O50: the run is decided by 512, one way or the other, and it has one end. -/
theorem runHaltsNormallyIffItReachesTheSentinelOrTheEnd :
    Obligations.RunHaltsNormallyIffItReachesTheSentinelOrTheEnd := by
  intro s hr hpc
  rw [← reachesTheEnd_iff]
  have hdecided := reachesTheEnd_or_error hr hpc
  exact ⟨⟨fun hn => hdecided.resolve_right (not_error_of_haltsNormally hn), ReachesTheEnd.haltsNormally⟩,
    hdecided.resolve_left⟩

/-- A run the last clause of O50 speaks of: its first word names r12, so it ends in error and does not reach the end. -/
theorem witness_not_reachesTheEnd : ¬ ReachesTheEnd (Tests.running 0x0060 [] []) := fun h =>
  not_error_of_haltsNormally h.haltsNormally ⟨1, _, rfl, rfl⟩

end Sys2Proof.Proofs

/-! PROOFS. The decoder and its inverse (30_encoding.md R60 to R72): what a word can decode to, said once, and the
obligations about the encoding. -/

namespace Sys2Proof.Proofs

/-! ### Splitting undoes joining -/

/-- R61, R63: each field of a joined word is the field it was joined from. -/
@[simp] theorem splitFields_joinFields (f : Fields) : splitFields (joinFields f) = f := by
  obtain ⟨t, o, i, a, b, c⟩ := f
  have hsum := joinFields_toNat ⟨t, o, i, a, b, c⟩
  dsimp only at hsum
  simp only [splitFields, Fields.mk.injEq]
  refine ⟨?_, ?_, ?_, ?_, ?_, ?_⟩ <;> apply BitVec.eq_of_toNat_eq <;>
    rw [BitVec.extractLsb'_toNat, hsum, Nat.shiftRight_eq_div_pow] <;> omega

/-! ### The opcode field of an ALU word -/

/-- The opcode of an ALU operation (R65). -/
def aluOpcode : AluOp → BitVec 4
  | .add => 0
  | .sub => 1
  | .and => 2
  | .or  => 3
  | .xor => 4

/-- R65: an opcode is an operation's, or it is 5..15. -/
theorem aluOpcode_or_illegal (o : BitVec 4) : (∃ op : AluOp, o = aluOpcode op) ∨ 5 ≤ o.toNat := by
  have hcases : o = 0 ∨ o = 1 ∨ o = 2 ∨ o = 3 ∨ o = 4 ∨ 5 ≤ o.toNat := by bv_omega
  rcases hcases with h | h | h | h | h | h
  · exact .inl ⟨.add, h⟩
  · exact .inl ⟨.sub, h⟩
  · exact .inl ⟨.and, h⟩
  · exact .inl ⟨.or, h⟩
  · exact .inl ⟨.xor, h⟩
  · exact .inr h

/-- A one-bit field is 0 or 1. -/
theorem bit_cases (b : BitVec 1) : b = 0#1 ∨ b = 1#1 := by bv_omega

/-- Everything an ALU-form word's fields can stand for (R65, R69). -/
inductive AluInstrCase (f : Fields) : Option Instr → Prop where
  | register (op : AluOp) (ho : f.opcode = aluOpcode op) (hi : f.iBit = 0#1) :
      AluInstrCase f (some (op.registerInstr f.operand1 f.operand2 f.operand3))
  | immediate (op : AluOp) (ho : f.opcode = aluOpcode op) (hi : f.iBit = 1#1) :
      AluInstrCase f (some (op.immediateInstr f.operand1 f.operand2 f.operand3))
  | illegal (ho : 5 ≤ f.opcode.toNat) : AluInstrCase f none

/-- R70: the opcodes 5..15 are no ALU operation's. -/
theorem aluInstr?_of_illegal {f : Fields} (h : 5 ≤ f.opcode.toNat) : aluInstr? f = none := by
  unfold aluInstr?
  split <;> simp_all

theorem aluInstr?_cases (f : Fields) : AluInstrCase f (aluInstr? f) := by
  rcases aluOpcode_or_illegal f.opcode with ⟨op, ho⟩ | ho
  · rcases bit_cases f.iBit with hi | hi
    · have e : aluInstr? f = some (op.registerInstr f.operand1 f.operand2 f.operand3) := by
        simp only [aluInstr?, ho, hi]
        cases op <;> rfl
      exact e ▸ .register op ho hi
    · have e : aluInstr? f = some (op.immediateInstr f.operand1 f.operand2 f.operand3) := by
        simp only [aluInstr?, ho, hi]
        cases op <;> rfl
      exact e ▸ .immediate op ho hi
  · exact aluInstr?_of_illegal ho ▸ .illegal ho

/-- Everything a Data-Transfer word's fields can stand for (R66, R69). -/
inductive DtInstrCase (f : Fields) : Option Instr → Prop where
  | load (ho : f.opcode = 5#4) : DtInstrCase f (some (.load f.iBit f.operand1 f.operand2 f.operand3))
  | store (ho : f.opcode = 6#4) : DtInstrCase f (some (.store f.iBit f.operand1 f.operand2 f.operand3))
  | illegal (hl : f.opcode ≠ 5#4) (hs : f.opcode ≠ 6#4) : DtInstrCase f none

/-- R70: every opcode but LOAD's and STORE's is none of the Data-Transfer Unit's. -/
theorem dtInstr?_of_illegal {f : Fields} (hl : f.opcode ≠ 5#4) (hs : f.opcode ≠ 6#4) : dtInstr? f = none := by
  unfold dtInstr?
  split
  · contradiction
  · contradiction
  · rfl

theorem dtInstr?_cases (f : Fields) : DtInstrCase f (dtInstr? f) := by
  unfold dtInstr?
  split
  · exact .load ‹_›
  · exact .store ‹_›
  · exact .illegal ‹_› ‹_›

/-! ### What a word decodes to -/

/-- Everything the decoder can answer on `w`: the sentinel is HALT, and any other word is what the fields of its
form stand for, or it is rejected with them (R62, R64, R70, R71). -/
inductive DecodeCase (w : Word) : Except DecodeReject Instr → Prop where
  | sentinel (hw : w = Config.emptyWord) : DecodeCase w (.ok .halt)
  | alu (i : Instr) (ht : (splitFields w).tBit = 0#1) (hi : aluInstr? (splitFields w) = some i) : DecodeCase w (.ok i)
  | dt (i : Instr) (hw : w ≠ Config.emptyWord) (ht : (splitFields w).tBit = 1#1)
      (hi : dtInstr? (splitFields w) = some i) : DecodeCase w (.ok i)
  | illegalAlu (ht : (splitFields w).tBit = 0#1) (hi : aluInstr? (splitFields w) = none) :
      DecodeCase w (.error (.aluOpcode (splitFields w)))
  | illegalDt (hw : w ≠ Config.emptyWord) (ht : (splitFields w).tBit = 1#1) (hi : dtInstr? (splitFields w) = none) :
      DecodeCase w (.error (.dtOpcode (splitFields w)))

theorem decode_cases (w : Word) : DecodeCase w (decode w) := by
  unfold decode decodeFields
  split
  · exact .sentinel ‹_›
  · split
    · split
      · exact .alu _ ‹_› ‹_›
      · exact .illegalAlu ‹_› ‹_›
    · have ht := (bit_cases (splitFields w).tBit).resolve_left ‹_›
      split
      · exact .dt _ ‹_› ht ‹_›
      · exact .illegalDt ‹_› ht ‹_›

/-! ### Encoding and decoding undo each other -/

/-- Only the sentinel's fields have the opcode 15 and decode (R71). -/
theorem instrFields_opcode_ne {i : Instr} (h : i ≠ .halt) : (instrFields i).opcode ≠ 15#4 := by
  cases i with
  | halt => exact absurd rfl h
  | _ => simp [instrFields]

/-- R69: the fields of an instruction stand for it. -/
theorem decodeFields_instrFields {i : Instr} (h : i ≠ .halt) : decodeFields (instrFields i) = .ok i := by
  cases i with
  | halt => exact absurd rfl h
  | _ => rfl

/-- R71: the sentinel's opcode is 15, so a word with another opcode goes to the fields. -/
theorem decode_joinFields {f : Fields} (h : f.opcode ≠ 15#4) : decode (joinFields f) = decodeFields f := by
  have hne : joinFields f ≠ Config.emptyWord := fun e => h (by rw [← splitFields_joinFields f, e]; rfl)
  rw [decode, if_neg hne, splitFields_joinFields]

theorem decode_eq_decodeFields {w : Word} (h : (splitFields w).opcode ≠ 15#4) :
    decode w = decodeFields (splitFields w) := by
  rw [← decode_joinFields h, joinFields_splitFields]

/-- R63, R69: the decoder reads back what was encoded. -/
@[simp] theorem decode_encode (i : Instr) : decode (encode i) = .ok i := by
  by_cases h : i = .halt
  · subst h
    exact decode_emptyWord
  · rw [encode, decode_joinFields (instrFields_opcode_ne h), decodeFields_instrFields h]

/-- Settles O11: the sentinel's row first, and every other row through its fields. -/
theorem decodeReadsBackEveryEncodedInstruction : Obligations.DecodeReadsBackEveryEncodedInstruction := decode_encode

/-- R65, R69: an ALU instruction's fields are those it was read from. -/
theorem instrFields_of_aluInstr? {f : Fields} {i : Instr} (ht : f.tBit = 0#1) (h : aluInstr? f = some i) :
    instrFields i = f := by
  obtain ⟨t, o, b, rd, ra, rb⟩ := f
  have hcase := aluInstr?_cases ⟨t, o, b, rd, ra, rb⟩
  rw [h] at hcase
  cases hcase with
  | register op ho hi | immediate op ho hi =>
    cases op <;> simp_all [instrFields, aluOpcode, AluOp.registerInstr, AluOp.immediateInstr]

/-- R66, R69: LOAD's and STORE's fields are those they were read from. -/
theorem instrFields_of_dtInstr? {f : Fields} {i : Instr} (ht : f.tBit = 1#1) (h : dtInstr? f = some i) :
    instrFields i = f := by
  obtain ⟨t, o, b, rd, ra, rb⟩ := f
  have hcase := dtInstr?_cases ⟨t, o, b, rd, ra, rb⟩
  rw [h] at hcase
  cases hcase with
  | load ho | store ho => simp_all [instrFields]

/-- R62, R63: a decoded word is its instruction's encoding. -/
theorem encode_of_decode {w : Word} {i : Instr} (h : decode w = .ok i) : encode i = w := by
  have hcase := decode_cases w
  rw [h] at hcase
  cases hcase with
  | sentinel hw => exact hw ▸ rfl
  | alu _ ht hi => rw [encode, instrFields_of_aluInstr? ht hi, joinFields_splitFields]
  | dt _ _ ht hi => rw [encode, instrFields_of_dtInstr? ht hi, joinFields_splitFields]

theorem decode_eq_ok_iff {w : Word} {i : Instr} : decode w = .ok i ↔ encode i = w :=
  ⟨encode_of_decode, fun h => h ▸ decode_encode i⟩

/-! ### The rejected words -/

/-- R70: the words that the ALU rejects. -/
theorem decode_eq_aluOpcode_iff {w : Word} {f : Fields} :
    decode w = .error (.aluOpcode f) ↔
      f = splitFields w ∧ (splitFields w).tBit = 0#1 ∧ 5 ≤ (splitFields w).opcode.toNat := by
  constructor
  · intro h
    have hcase := decode_cases w
    rw [h] at hcase
    cases hcase with
    | illegalAlu ht hi =>
      have halu := aluInstr?_cases (splitFields w)
      rw [hi] at halu
      cases halu with
      | illegal ho => exact ⟨rfl, ht, ho⟩
  · rintro ⟨rfl, ht, ho⟩
    have hne : w ≠ Config.emptyWord := by
      rintro rfl
      exact absurd ht (by decide)
    simp [decode, hne, decodeFields, ht, aluInstr?_of_illegal ho]

/-- R70: the words that the Data-Transfer Unit rejects. -/
theorem decode_eq_dtOpcode_iff {w : Word} {f : Fields} :
    decode w = .error (.dtOpcode f) ↔
      f = splitFields w ∧ w ≠ Config.emptyWord ∧ (splitFields w).tBit = 1#1
        ∧ (splitFields w).opcode ≠ 5#4 ∧ (splitFields w).opcode ≠ 6#4 := by
  constructor
  · intro h
    have hcase := decode_cases w
    rw [h] at hcase
    cases hcase with
    | illegalDt hw ht hi =>
      have hdt := dtInstr?_cases (splitFields w)
      rw [hi] at hdt
      cases hdt with
      | illegal hl hs => exact ⟨rfl, hw, ht, hl, hs⟩
  · rintro ⟨rfl, hw, ht, hl, hs⟩
    simp [decode, hw, decodeFields, ht, dtInstr?_of_illegal hl hs]

/-- Settles O12: decoding and encoding are inverse, and a rejected word comes with its own fields. -/
theorem decodedWordsReencodeToThemselves : Obligations.DecodedWordsReencodeToThemselves := by
  refine fun w => ⟨fun i => encode_of_decode, ?_⟩
  rintro f (h | h)
  · rw [(decode_eq_aluOpcode_iff.1 h).1, joinFields_splitFields]
  · rw [(decode_eq_dtOpcode_iff.1 h).1, joinFields_splitFields]

/-- R70: `t_bit` 0 and an opcode of 5..15 are the words 0x2800..0x7FFF. -/
theorem illegalAlu_fields_iff_range (w : Word) :
    ((splitFields w).tBit = 0#1 ∧ 5 ≤ (splitFields w).opcode.toNat) ↔ 0x2800 ≤ w.toNat ∧ w.toNat ≤ 0x7FFF := by
  have hsum := (fieldsRejoinToTheWord w).2
  generalize splitFields w = f at hsum ⊢
  bv_omega

/-- R70: `t_bit` 1 and an opcode other than 5 and 6, without the sentinel, are two ranges of words. -/
theorem illegalDt_fields_iff_range (w : Word) :
    (w ≠ Config.emptyWord ∧ (splitFields w).tBit = 1#1 ∧ (splitFields w).opcode ≠ 5#4 ∧ (splitFields w).opcode ≠ 6#4) ↔
      (0x8000 ≤ w.toNat ∧ w.toNat ≤ 0xA7FF) ∨ (0xB800 ≤ w.toNat ∧ w.toNat ≤ 0xFFFE) := by
  have hsum := (fieldsRejoinToTheWord w).2
  generalize splitFields w = f at hsum ⊢
  bv_omega

/-- Settles O13: the rejects are classes of fields, the classes are ranges, and HALT's encoding is one word. -/
theorem illegalWordsAreTheThreeRanges : Obligations.IllegalWordsAreTheThreeRanges := fun w => by
  refine ⟨?_, ?_, decode_eq_ok_iff.trans eq_comm⟩
  · simp only [decode_eq_aluOpcode_iff, exists_eq_left, illegalAlu_fields_iff_range]
  · simp only [decode_eq_dtOpcode_iff, exists_eq_left, illegalDt_fields_iff_range]

/-! ### The opcode table -/

/-- R69: every instruction's word belongs to the row of its mnemonic. -/
theorem tableRow_of_instr (i : Instr) : Laws.TableRow.Statement i := by
  cases i with
  | add rd ra rb => exact Laws.TableRow.add rd ra rb
  | addi rd n rb => exact Laws.TableRow.addi rd n rb
  | sub rd ra rb => exact Laws.TableRow.sub rd ra rb
  | subi rd n rb => exact Laws.TableRow.subi rd n rb
  | and rd ra rb => exact Laws.TableRow.and rd ra rb
  | andi rd n rb => exact Laws.TableRow.andi rd n rb
  | or rd ra rb => exact Laws.TableRow.or rd ra rb
  | ori rd n rb => exact Laws.TableRow.ori rd n rb
  | xor rd ra rb => exact Laws.TableRow.xor rd ra rb
  | xori rd n rb => exact Laws.TableRow.xori rd n rb
  | load b rd a o3 => exact Laws.TableRow.load b rd a o3
  | store b rs a o3 => exact Laws.TableRow.store b rs a o3
  | halt => exact Laws.TableRow.halt

/-- R69: the mnemonics of the table are distinct. -/
theorem row_eq_of_mnemonic_eq : ∀ r ∈ opcodeTable, ∀ r' ∈ opcodeTable, r.mnemonic = r'.mnemonic → r = r' := by
  decide

/-- A concatenation determines its two parts. -/
theorem append_inj {m n : Nat} {x x' : BitVec m} {y y' : BitVec n} (h : x ++ y = x' ++ y') : x = x' ∧ y = y' := by
  constructor
  · rw [← BitVec.extractLsb'_append_eq_left (a := x) (b := y), h, BitVec.extractLsb'_append_eq_left]
  · rw [← BitVec.setWidth_append_eq_right (a := x) (b := y), h, BitVec.setWidth_append_eq_right]

/-- R65: an ALU row fixes `t_bit`, opcode and `i_bit`, and leaves the three operands. -/
theorem joinFields_of_aluRow {w : Word} {o : BitVec 4} {i : BitVec 1}
    (h : w &&& 0xFC00#16 = 0#1 ++ o ++ i ++ 0#10) :
    joinFields ⟨0, o, i, (splitFields w).operand1, (splitFields w).operand2, (splitFields w).operand3⟩ = w := by
  rw [← joinFields_splitFields w, Laws.joinFields_and_fixed] at h
  obtain ⟨hto, hi⟩ := append_inj (append_inj h).1
  obtain ⟨ht, ho⟩ := append_inj hto
  conv_rhs => rw [← joinFields_splitFields w]
  rw [← ho, ← hi, show (0 : BitVec 1) = _ from ht.symm]

/-- R66: a Data-Transfer row fixes `t_bit` and opcode, and leaves `i_bit` and the three operands. -/
theorem joinFields_of_dtRow {w : Word} {o : BitVec 4} (h : w &&& 0xF800#16 = 1#1 ++ o ++ 0#11) :
    joinFields ⟨1, o, (splitFields w).iBit, (splitFields w).operand1, (splitFields w).operand2,
      (splitFields w).operand3⟩ = w := by
  rw [← joinFields_splitFields w, Laws.joinFields_and_fixedDt] at h
  obtain ⟨ht, ho⟩ := append_inj (append_inj h).1
  conv_rhs => rw [← joinFields_splitFields w]
  rw [← ho, show (1 : BitVec 1) = _ from ht.symm]

/-- R69: a word of a row is the encoding of an instruction with the row's mnemonic. -/
theorem exists_instr_of_row {w : Word} {r : OpcodeRow} (hr : r ∈ opcodeTable) (h : w &&& r.mask = r.bits) :
    ∃ i : Instr, encode i = w ∧ i.mnemonic = r.mnemonic := by
  simp only [opcodeTable, List.mem_cons, List.not_mem_nil, or_false] at hr
  rcases hr with rfl | rfl | rfl | rfl | rfl | rfl | rfl | rfl | rfl | rfl | rfl | rfl | rfl
  · exact ⟨.add _ _ _, joinFields_of_aluRow (o := 0) (i := 0) h, rfl⟩
  · exact ⟨.addi _ _ _, joinFields_of_aluRow (o := 0) (i := 1) h, rfl⟩
  · exact ⟨.sub _ _ _, joinFields_of_aluRow (o := 1) (i := 0) h, rfl⟩
  · exact ⟨.subi _ _ _, joinFields_of_aluRow (o := 1) (i := 1) h, rfl⟩
  · exact ⟨.and _ _ _, joinFields_of_aluRow (o := 2) (i := 0) h, rfl⟩
  · exact ⟨.andi _ _ _, joinFields_of_aluRow (o := 2) (i := 1) h, rfl⟩
  · exact ⟨.or _ _ _, joinFields_of_aluRow (o := 3) (i := 0) h, rfl⟩
  · exact ⟨.ori _ _ _, joinFields_of_aluRow (o := 3) (i := 1) h, rfl⟩
  · exact ⟨.xor _ _ _, joinFields_of_aluRow (o := 4) (i := 0) h, rfl⟩
  · exact ⟨.xori _ _ _, joinFields_of_aluRow (o := 4) (i := 1) h, rfl⟩
  · exact ⟨.load _ _ _ _, joinFields_of_dtRow (o := 5) h, rfl⟩
  · exact ⟨.store _ _ _ _, joinFields_of_dtRow (o := 6) h, rfl⟩
  · exact ⟨.halt, (h.symm.trans BitVec.and_allOnes), rfl⟩

/-- Settles O14: a word of a row is an encoding, and an encoding belongs to the one row of its mnemonic. -/
theorem decoderFollowsTheOpcodeTable : Obligations.DecoderFollowsTheOpcodeTable := by
  intro w r hr
  simp only [decode_eq_ok_iff]
  refine ⟨exists_instr_of_row hr, ?_⟩
  rintro ⟨i, rfl, hi⟩
  obtain ⟨r', hr', hi', hsel⟩ := tableRow_of_instr i
  obtain rfl : r = r' := row_eq_of_mnemonic_eq r hr r' hr' (hi.symm.trans hi'.symm)
  exact hsel

/-- Settles O15: each word is the encoding of the instruction that its rule names. -/
theorem exampleWordsDecode : Obligations.ExampleWordsDecode :=
  ⟨decode_encode (.add 1 2 3), decode_encode (.addi 1 15 3), decode_encode (.sub 1 2 3), decode_encode (.subi 1 0 3),
   decode_encode (.and 4 5 6), decode_encode (.andi 4 9 6), decode_encode (.or 7 0 1), decode_encode (.ori 7 15 0),
   decode_encode (.xor 2 2 2), decode_encode (.xori 3 10 3), decode_encode (.load 0 0 8 0),
   decode_encode (.load 0 0 8 7), decode_encode (.store 0 3 15 0), decode_encode .halt⟩

end Sys2Proof.Proofs

/-! PROOFS. The rest of the ALU (41_alu.md R83, R87 to R89, R91, R93, R95): SUB, the immediate forms, the illegal
opcodes, and the pseudo-instructions (30_encoding.md R74), which are ALU words. -/

namespace Sys2Proof.Proofs

open Sys2Proof.Machine

/-! ### Results as numbers -/

/-- R88, R96: the SUB result is the difference of the two numbers modulo 2^16. -/
theorem aluResult_sub_eq_ofInt_mod (x y : Word) :
    aluResult .sub x y = BitVec.ofInt 16 (((x.toNat : Int) - (y.toNat : Int)) % 65536) := by
  apply BitVec.eq_of_toNat_eq
  simp only [aluResult, BitVec.toNat_sub, BitVec.toNat_ofInt]
  omega

/-- R67: the immediate as the number of its field. -/
theorem immediateOperand_eq_ofNat (n : Operand2) : immediateOperand n = BitVec.ofNat 16 n.toNat :=
  BitVec.eq_of_toNat_eq (by simp [immediateOperand])

/-- R67: bits 15:4 of an immediate are 0. -/
theorem immediateOperand_high (n : Operand2) : (immediateOperand n).toNat / 2 ^ 4 = 0 := by
  rw [immediateOperand_toNat, Nat.div_eq_of_lt n.isLt]

/-- Settles O18: the register form at SUB, with its result read as a difference modulo 2^16. -/
theorem subRegisterForm : Obligations.SubRegisterForm := fun s rd ra rb =>
  ⟨rfl, fun h => by
    rw [← aluResult_sub_eq_ofInt_mod]
    exact registerInstr_completes_of_le .sub rd rb s h,
   registerInstr_raises_of_gt .sub rd rb s⟩

theorem exec_registerInstr_of_le (op : AluOp) (rd : RegIdx) {ra : Operand2} (rb : RegIdx) (s : State)
    (h : ra.toNat ≤ 7) :
    exec (op.registerInstr rd ra rb) s =
      .next (s.advancePc.writeReg rd (aluResult op (s.readReg (ra.setWidth 3)) (s.readReg rb))) :=
  (exec_registerInstr op rd ra rb s).trans (aluRegisterForm_of_le op rd rb s h)

theorem exec_registerInstr_of_gt (op : AluOp) (rd : RegIdx) {ra : Operand2} (rb : RegIdx) (s : State)
    (h : 7 < ra.toNat) :
    exec (op.registerInstr rd ra rb) s = .next (s.advancePc.raise .errRegOperand s.pcWord) :=
  (exec_registerInstr op rd ra rb s).trans (aluRegisterForm_of_gt op rd rb s h)

/-! ### The immediate forms -/

/-- R134: the immediate-form instruction of each of the five operations runs the one immediate form. -/
theorem exec_immediateInstr (op : AluOp) (rd : RegIdx) (n : Operand2) (rb : RegIdx) (s : State) :
    exec (op.immediateInstr rd n rb) s = aluImmediateForm op rd n rb s := by
  cases op <;> rfl

theorem exec_immediateInstr_eq (op : AluOp) (rd : RegIdx) (n : Operand2) (rb : RegIdx) (s : State) :
    exec (op.immediateInstr rd n rb) s =
      .next (s.advancePc.writeReg rd (aluResult op (immediateOperand n) (s.readReg rb))) :=
  (exec_immediateInstr op rd n rb s).trans (aluImmediateForm_eq op rd n rb s)

/-- R67, R84, R85: an immediate form writes its operation's result and nothing else, in every state. -/
theorem immediateInstr_completes (op : AluOp) (rd : RegIdx) (n : Operand2) (rb : RegIdx) (s : State) :
    Completes (op.immediateInstr rd n rb) s
      (WritesOnlyRegister rd (aluResult op (immediateOperand n) (s.readReg rb)) s) :=
  ⟨_, exec_immediateInstr_eq op rd n rb s, writesOnlyRegister_of_write rd _ s⟩

/-- Settles O22: the immediate form at ADD. -/
theorem addImmediateForm : Obligations.AddImmediateForm := fun s rd n rb =>
  ⟨rfl, by
    rw [← immediateOperand_toNat n, ← aluResult_add_eq_ofNat_mod]
    exact immediateInstr_completes .add rd n rb s⟩

/-- Settles O23: the immediate form at SUB. -/
theorem subImmediateForm : Obligations.SubImmediateForm := fun s rd n rb =>
  ⟨rfl, by
    rw [← immediateOperand_toNat n, ← aluResult_sub_eq_ofInt_mod]
    exact immediateInstr_completes .sub rd n rb s⟩

/-- An immediate form, together with what bits 15:4 of its result are. -/
theorem immediateInstr_completes_high (op : AluOp) (rd : RegIdx) (n : Operand2) (rb : RegIdx) (s : State) {high : Nat}
    (hhigh : (aluResult op (immediateOperand n) (s.readReg rb)).toNat / 2 ^ 4 = high) :
    Completes (op.immediateInstr rd n rb) s fun t =>
      WritesOnlyRegister rd (aluResult op (BitVec.ofNat 16 n.toNat) (s.readReg rb)) s t
        ∧ (t.readReg rd).toNat / 16 = high := by
  obtain ⟨t, ht, hwrites⟩ := immediateInstr_completes op rd n rb s
  exact ⟨t, ht, immediateOperand_eq_ofNat n ▸ hwrites, hwrites.result ▸ hhigh⟩

/-- Settles O24: bits 15:4 of the immediate are 0, so AND clears them and OR and XOR leave the register's. -/
theorem logicalImmediateForms : Obligations.LogicalImmediateForms := fun s rd n rb =>
  ⟨⟨rfl, immediateInstr_completes_high .and rd n rb s (by
      rw [aluResult, BitVec.toNat_and, Nat.and_div_two_pow, immediateOperand_high, Nat.zero_and])⟩,
   ⟨rfl, immediateInstr_completes_high .or rd n rb s (by
      rw [aluResult, BitVec.toNat_or, Nat.or_div_two_pow, immediateOperand_high, Nat.zero_or])⟩,
   ⟨rfl, immediateInstr_completes_high .xor rd n rb s (by
      rw [aluResult, BitVec.toNat_xor, Nat.xor_div_two_pow, immediateOperand_high, Nat.zero_xor])⟩⟩

/-! ### The illegal opcodes -/

/-- Settles O25: the range is the decoder's class of rejects, and the answer raises its reason and nothing more. -/
theorem illegalAluWordsRaise : Obligations.IllegalAluWordsRaise := by
  intro s w hr hf hlo hhi
  have hd : decode w = .error (.aluOpcode (splitFields w)) :=
    decode_eq_aluOpcode_iff.2 ⟨rfl, (illegalAlu_fields_iff_range w).2 ⟨hlo, hhi⟩⟩
  exact ⟨step_of_illegal hr hf hd, ⟨_, rfl, raisesError_of_raise _ s⟩, ⟨_, rfl, raisesError_of_raise _ s⟩⟩

/-! ### The pseudo-instructions -/

/-- R74: MOV, which is OR of a register with itself. -/
theorem mov_completes (d r : RegIdx) (s : State) :
    Completes (.or d (r.setWidth 4) r) s (WritesOnlyRegister d (s.readReg r) s) := by
  obtain ⟨hle, hreg⟩ := operand2_names_register (ra := r.setWidth 4) (BitVec.toNat_setWidth_of_le (by decide))
  have hor := registerInstr_completes_of_le .or d r s hle
  rwa [hreg, aluResult, BitVec.or_self] at hor

/-- R74: CLR, which is XOR of a register with itself. -/
theorem clr_completes (d : RegIdx) (s : State) :
    Completes (.xor d (d.setWidth 4) d) s (WritesOnlyRegister d 0#16 s) :=
  xor_same_register_writes_zero d s (BitVec.toNat_setWidth_of_le (by decide))

/-- R74: NOP, which is MOV of r0 to itself, changes the PC only. -/
theorem nop_completes (s : State) :
    Completes (.or 0 0 0) s fun t =>
      KeepsRegisters s t ∧ KeepsMemory s t ∧ KeepsRunning s t ∧ t.pc = s.pc + 1#10 := by
  obtain ⟨t, ht, hwrites⟩ := mov_completes 0 0 s
  refine ⟨t, ht, fun r => ?_, hwrites.memory, hwrites.running, hwrites.pc⟩
  by_cases h : r = 0
  · exact h ▸ hwrites.result
  · exact hwrites.registers r h

/-- Unchanged from `s` to `t` and from `t` to `u`. -/
theorem keepsRunning_trans {s t u : State} (h : KeepsRunning s t) (h' : KeepsRunning t u) : KeepsRunning s u :=
  ⟨h'.runState.trans h.runState, h'.haltReason.trans h.haltReason, h'.haltInfo.trans h.haltInfo⟩

/-- R133: the PC after two instructions. -/
theorem pc_add_two {s t u : State} (h : t.pc = s.pc + 1#10) (h' : u.pc = t.pc + 1#10) : u.pc = s.pc + 2#10 := by
  rw [h', h, BitVec.add_assoc]
  rfl

/-- R74: LI, which clears the register and then ORs the immediate into it. -/
theorem li_completes (d : RegIdx) (n : Operand2) (s : State) :
    Completes (.xor d (d.setWidth 4) d) s fun t => Completes (.ori d n d) t fun u =>
      (u.readReg d).toNat = n.toNat ∧ (∀ r : RegIdx, r ≠ d → u.readReg r = s.readReg r)
      ∧ KeepsMemory s u ∧ KeepsRunning s u ∧ u.pc = s.pc + 2#10 := by
  obtain ⟨t, ht, hclr⟩ := clr_completes d s
  obtain ⟨u, hu, hori⟩ := immediateInstr_completes .or d n d t
  refine ⟨t, ht, u, hu, ?_, fun r h => (hori.registers r h).trans (hclr.registers r h),
    fun a => (hori.memory a).trans (hclr.memory a), keepsRunning_trans hclr.running hori.running, pc_add_two hclr.pc hori.pc⟩
  rw [hori.result, hclr.result, aluResult, BitVec.or_zero, immediateOperand_toNat]

/-- Settles O16: each pseudo-instruction is the encoding of the instructions that the lemmas above run. -/
theorem pseudoInstructionsDoWhatTheirNamesSay : Obligations.PseudoInstructionsDoWhatTheirNamesSay :=
  ⟨rfl,
   ⟨_, _, rfl, decode_encode _, nop_completes⟩,
   fun d r => ⟨_, _, rfl, decode_encode _, mov_completes d r⟩,
   fun d => ⟨_, _, rfl, decode_encode _, clr_completes d⟩,
   fun d n => ⟨_, _, _, _, rfl, decode_encode _, decode_encode _, li_completes d n⟩⟩

end Sys2Proof.Proofs

/-! PROOFS. Memory (20_memory.md) and the Data-Transfer Unit (42_data_transfer.md): what a canonical list determines,
LOAD and STORE, and which words of memory the CORE reads and writes. -/

namespace Sys2Proof.Proofs

open Sys2Proof.Machine

/-! ### The canonical form -/

/-- A canonical memory from `lo` on lists nothing below `lo`. -/
theorem read_eq_empty_of_lt {lo a : Nat} {m : Memory} (hm : Memory.wfFrom lo m = true) (h : a < lo) :
    m.read a = Config.emptyWord := by
  induction m generalizing lo with
  | nil => rfl
  | cons c m ih =>
    obtain ⟨b, w⟩ := c
    obtain ⟨hb, -, -, hm'⟩ := Memory.wfFrom_cons.1 hm
    rw [Memory.read, if_neg (by omega), ih hm' (by omega)]

/-- The word of a memory's first cell. -/
theorem read_head {b : Nat} {w : Word} {m : Memory} : Memory.read ((b, w) :: m) b = w := by
  rw [Memory.read, if_pos rfl]

/-- Of two canonical memories with the same words, neither can begin before the other. -/
theorem head_not_lt {lo lo' b b' : Nat} {w w' : Word} {m m' : Memory}
    (hm : Memory.wfFrom lo ((b, w) :: m) = true) (hm' : Memory.wfFrom lo' ((b', w') :: m') = true)
    (h : ∀ a : Nat, a < 512 → Memory.read ((b, w) :: m) a = Memory.read ((b', w') :: m') a) : ¬ b < b' := by
  intro hlt
  obtain ⟨-, hb, hw, -⟩ := Memory.wfFrom_cons.1 hm
  obtain ⟨-, hrest⟩ := Memory.wfFrom_cons.1 hm'
  have hfrom : Memory.wfFrom b' ((b', w') :: m') = true := Memory.wfFrom_cons.2 ⟨le_rfl, hrest⟩
  have hread := h b hb
  rw [read_head, read_eq_empty_of_lt hfrom hlt] at hread
  exact hw hread

/-- A canonical memory that reads as EMPTY everywhere lists nothing. -/
theorem eq_nil_of_reads_empty {lo : Nat} {m : Memory} (hm : Memory.wfFrom lo m = true)
    (h : ∀ a : Nat, a < 512 → m.read a = Config.emptyWord) : m = [] := by
  cases m with
  | nil => rfl
  | cons c m =>
    obtain ⟨b, w⟩ := c
    obtain ⟨-, hb, hw, -⟩ := Memory.wfFrom_cons.1 hm
    exact absurd (read_head.symm.trans (h b hb)) hw

/-- R22: the words determine a canonical list, cell by cell: the first cells agree, and then so do the rests. -/
theorem canonical_eq_of_reads_eq {lo lo' : Nat} {m m' : Memory} (hm : Memory.wfFrom lo m = true)
    (hm' : Memory.wfFrom lo' m' = true) (h : ∀ a : Nat, a < 512 → m.read a = m'.read a) : m = m' := by
  induction m generalizing lo lo' m' with
  | nil => exact (eq_nil_of_reads_empty hm' fun a ha => (h a ha).symm).symm
  | cons c m ih =>
    cases m' with
    | nil => exact eq_nil_of_reads_empty hm h
    | cons c' m' =>
      obtain ⟨b, w⟩ := c
      obtain ⟨b', w'⟩ := c'
      have hle := head_not_lt hm hm' h
      have hge := head_not_lt hm' hm fun a ha => (h a ha).symm
      obtain rfl : b = b' := by omega
      obtain ⟨-, hb, -, htail⟩ := Memory.wfFrom_cons.1 hm
      obtain ⟨-, -, -, htail'⟩ := Memory.wfFrom_cons.1 hm'
      obtain rfl : w = w' := by simpa only [read_head] using h b hb
      have hrest : m = m' := ih htail htail' fun a ha => by
        by_cases hab : b = a
        · rw [read_eq_empty_of_lt htail (by omega), read_eq_empty_of_lt htail' (by omega)]
        · simpa only [Memory.read, if_neg hab] using h a ha
      rw [hrest]

/-- Settles O32: the canonical form from address 0. -/
theorem canonicalMemoriesAreEqualWhenTheirWordsAre : Obligations.CanonicalMemoriesAreEqualWhenTheirWordsAre :=
  fun _ _ hm hm' h => canonical_eq_of_reads_eq hm hm' h

/-- R22: writing EMPTY to a slot that was EMPTY before it was written gives the memory again. -/
theorem write_write_empty {m : Memory} {a : Nat} (v : Word) (ha : a < 512) (hm : m.wf = true)
    (h : m.read a = Config.emptyWord) : (m.write a v).write a Config.emptyWord = m := by
  refine canonicalMemoriesAreEqualWhenTheirWordsAre _ _ (Memory.wf_write _ ha (Memory.wf_write v ha hm)) hm ?_
  intro b _
  by_cases hb : b = a
  · rw [hb, Memory.read_write_same, h]
  · rw [Memory.read_write_other _ _ hb, Memory.read_write_other _ _ hb]

/-- Settles O33: memory is the one field that the two writes touch. -/
theorem storingEmptyUndoesAWrite : Obligations.StoringEmptyUndoesAWrite := fun s a v hm h =>
  congrArg (fun m => { s with memory := m }) (write_write_empty v a.isLt hm h)

/-! ### LOAD and STORE -/

/-- R114, R116: LOAD writes its register, and nothing else. -/
theorem load_completes (i : BitVec 1) (rd : RegIdx) (a : Operand2) (o3 : BitVec 3) (s : State) :
    Completes (.load i rd a o3) s (WritesOnlyRegister rd (s.memRead (dtAddr a)) s) :=
  ⟨_, execLoad_eq i rd a o3 s, writesOnlyRegister_of_write rd _ s⟩

/-- R115, R116: STORE writes its word of memory, and nothing else. -/
theorem store_completes (i : BitVec 1) (rs : RegIdx) (a : Operand2) (o3 : BitVec 3) (s : State) :
    Completes (.store i rs a o3) s (WritesOnlyMemory (dtAddr a) (s.readReg rs) s) :=
  ⟨_, execStore_eq i rs a o3 s, writesOnlyMemory_of_write _ _ s⟩

/-- Settles O26: the address of the access is operand2's value. -/
theorem loadReadsItsAddress : Obligations.LoadReadsItsAddress := fun s i rd a o3 =>
  ⟨rfl, dtAddr a, addrOf?_dtAddress a, rfl, load_completes i rd a o3 s⟩

/-- Settles O27: the address of the access is operand2's value. -/
theorem storeWritesItsAddress : Obligations.StoreWritesItsAddress := fun s i rs a o3 =>
  ⟨rfl, dtAddr a, addrOf?_dtAddress a, rfl, store_completes i rs a o3 s⟩

/-- Settles O35: LOAD reads what STORE has just written, and each of the two has its frame. -/
theorem loadAfterStoreGivesTheStoredWord : Obligations.LoadAfterStoreGivesTheStoredWord := by
  intro s i i' rs rd a o3 o3'
  obtain ⟨t, ht, hstore⟩ := store_completes i rs a o3 s
  obtain ⟨u, hu, hload⟩ := load_completes i' rd a o3' t
  exact ⟨t, ht, u, hu, hload.result.trans hstore.result,
    fun r h => (hload.registers r h).trans (hstore.registers r),
    fun b h => (hload.memory b).trans (hstore.memory b fun e => h (congrArg Fin.val e)),
    keepsRunning_trans hstore.running hload.running, pc_add_two hstore.pc hload.pc⟩

/-- Settles O28: the ranges are the decoder's class of rejects, and the answer raises ERR_DT_OPCODE. -/
theorem illegalDtWordsRaise : Obligations.IllegalDtWordsRaise := by
  intro s w hr hf hrange
  have hd : decode w = .error (.dtOpcode (splitFields w)) :=
    decode_eq_dtOpcode_iff.2 ⟨rfl, (illegalDt_fields_iff_range w).2 hrange⟩
  exact ⟨_, (step_of_illegal hr hf hd).trans (illegalDt_eq _ s), raisesError_of_raise _ s⟩

/-- R66: the words of LOAD. -/
theorem decode_load_word {w : Word} (ht : (splitFields w).tBit = 1#1) (ho : (splitFields w).opcode = 5#4) :
    decode w = .ok (.load (splitFields w).iBit (splitFields w).operand1 (splitFields w).operand2
      (splitFields w).operand3) := by
  rw [decode_eq_decodeFields (by simp [ho])]
  simp [decodeFields, dtInstr?, ht, ho]

/-- R66: the words of STORE. -/
theorem decode_store_word {w : Word} (ht : (splitFields w).tBit = 1#1) (ho : (splitFields w).opcode = 6#4) :
    decode w = .ok (.store (splitFields w).iBit (splitFields w).operand1 (splitFields w).operand2
      (splitFields w).operand3) := by
  rw [decode_eq_decodeFields (by simp [ho])]
  simp [decodeFields, dtInstr?, ht, ho]

/-- Settles O29: the meanings of LOAD and STORE take the ignored bits and do not use them. -/
theorem ignoredBitsOfDataTransferWordsHaveNoEffect : Obligations.IgnoredBitsOfDataTransferWordsHaveNoEffect := by
  intro w w' ht ho ht' hsame h1 h2
  rcases ho with ho | ho
  · refine ⟨_, _, decode_load_word ht ho, decode_load_word ht' (hsame.trans ho), fun s => ?_⟩
    rw [h1, h2]
    rfl
  · refine ⟨_, _, decode_store_word ht ho, decode_store_word ht' (hsame.trans ho), fun s => ?_⟩
    rw [h1, h2]
    rfl

/-! ### Which words of memory the CORE writes and reads -/

/-- R43, R117: a Data-Transfer address is one of 0..15. -/
theorem dtAddr_lt_sixteen (a : Operand2) : (dtAddr a).val < 16 := a.isLt

/-- Settles O30: only STORE writes memory, at an address of 4 bits. -/
theorem stepsWriteOnlyTheFirstSixteenWords : Obligations.StepsWriteOnlyTheFirstSixteenWords := by
  intro s t h b hb
  obtain ⟨-, heffect⟩ := step_next_cases h
  cases heffect with
  | memory a v _ =>
    have hne : b ≠ dtAddr a := fun e => (dtAddr_lt_sixteen a).not_ge (e ▸ hb)
    exact memWrite_memRead_other s.advancePc v hne
  | register | error | sentinel | endOfMemory => rfl

/-- The outcome of an instruction in `s` is the same on the memory `m`, up to memory, and memory is again the same at
0..15. -/
def SameOnMemory (i : Instr) (s : State) (m : Memory) : Prop :=
  ∃ (t : State) (m' : Memory), exec i s = .next t ∧ exec i { s with memory := m } = .next { t with memory := m' }
    ∧ ∀ a : Nat, a < 16 → m'.read a = t.memory.read a

section

variable {s : State} {m : Memory} (h : ∀ a : Nat, a < 16 → m.read a = s.memory.read a)

include h

/-- The register forms do not read memory (R84). -/
theorem registerInstr_sameOnMemory (op : AluOp) (rd : RegIdx) (ra : Operand2) (rb : RegIdx) :
    SameOnMemory (op.registerInstr rd ra rb) s m := by
  rcases Nat.lt_or_ge 7 ra.toNat with hra | hra
  · exact ⟨_, m, exec_registerInstr_of_gt op rd rb s hra, exec_registerInstr_of_gt op rd rb _ hra, h⟩
  · exact ⟨_, m, exec_registerInstr_of_le op rd rb s hra, exec_registerInstr_of_le op rd rb _ hra, h⟩

/-- The immediate forms do not read memory (R84). -/
theorem immediateInstr_sameOnMemory (op : AluOp) (rd : RegIdx) (n : Operand2) (rb : RegIdx) :
    SameOnMemory (op.immediateInstr rd n rb) s m :=
  ⟨_, m, exec_immediateInstr_eq op rd n rb s, exec_immediateInstr_eq op rd n rb _, h⟩

/-- LOAD reads one word, at 0..15 (R117). -/
theorem load_sameOnMemory (i : BitVec 1) (rd : RegIdx) (a : Operand2) (o3 : BitVec 3) :
    SameOnMemory (.load i rd a o3) s m := by
  refine ⟨_, m, execLoad_eq i rd a o3 s, (execLoad_eq i rd a o3 _).trans ?_, h⟩
  have hread : State.memRead { s with memory := m } (dtAddr a) = s.memRead (dtAddr a) := h _ (dtAddr_lt_sixteen a)
  rw [hread]
  rfl

/-- STORE writes the same register's word at the same address (R117). -/
theorem store_sameOnMemory (i : BitVec 1) (rs : RegIdx) (a : Operand2) (o3 : BitVec 3) :
    SameOnMemory (.store i rs a o3) s m := by
  refine ⟨_, m.write (dtAddr a).val (s.readReg rs), execStore_eq i rs a o3 s, execStore_eq i rs a o3 _, ?_⟩
  intro b hb
  by_cases hba : b = (dtAddr a).val
  · simp [hba]
  · simp [hba, h b hb]

theorem exec_sameOnMemory (i : Instr) : SameOnMemory i s m := by
  cases i with
  | add rd ra rb => exact registerInstr_sameOnMemory h .add rd ra rb
  | addi rd n rb => exact immediateInstr_sameOnMemory h .add rd n rb
  | sub rd ra rb => exact registerInstr_sameOnMemory h .sub rd ra rb
  | subi rd n rb => exact immediateInstr_sameOnMemory h .sub rd n rb
  | and rd ra rb => exact registerInstr_sameOnMemory h .and rd ra rb
  | andi rd n rb => exact immediateInstr_sameOnMemory h .and rd n rb
  | or rd ra rb => exact registerInstr_sameOnMemory h .or rd ra rb
  | ori rd n rb => exact immediateInstr_sameOnMemory h .or rd n rb
  | xor rd ra rb => exact registerInstr_sameOnMemory h .xor rd ra rb
  | xori rd n rb => exact immediateInstr_sameOnMemory h .xor rd n rb
  | load i rd a o3 => exact load_sameOnMemory h i rd a o3
  | store i rs a o3 => exact store_sameOnMemory h i rs a o3
  | halt => exact ⟨_, m, rfl, rfl, h⟩

end

/-- Settles O31: the two outcomes differ in memory alone, and not at 0..15. -/
theorem instructionsReadOnlyTheFirstSixteenWords : Obligations.InstructionsReadOnlyTheFirstSixteenWords := by
  intro i s m h
  obtain ⟨t, m', ht, hu, hmem⟩ := exec_sameOnMemory h i
  exact ⟨t, _, ht, hu, fun _ => rfl, rfl, ⟨rfl, rfl, rfl⟩, fun a ha => hmem a.val ha⟩

/-! ### A stored word as the next instruction -/

/-- R132: below 512 the fetch reads the word at the PC. -/
theorem fetch_of_pc_eq {s : State} {a : Addr} (h : s.pc.toNat = a.val) : fetch s = some (s.memRead a) := by
  rw [fetch, addrOf?_eq_some.2 h]
  rfl

/-- A 10-bit PC that a 4-bit address is one above: the advance lands on the address. -/
theorem advancePc_toNat_eq {s : State} {a : Operand2} (h : a.toNat = s.pc.toNat + 1) :
    s.advancePc.pc.toNat = (dtAddr a).val := by
  have := a.isLt
  exact (pc_add_one_toNat (by omega)).trans h.symm

/-- Settles O34: after the STORE the PC is at the stored word, which is fetched and decoded as any other. -/
theorem storeIsSeenByTheNextFetch : Obligations.StoreIsSeenByTheNextFetch := by
  intro s w i rs a o3 j hr hf hd ha hj
  have haddr : (⟨a.toNat % 512, Nat.mod_lt _ (Nat.succ_pos 511)⟩ : Addr) = dtAddr a :=
    Fin.ext (Nat.mod_eq_of_lt (dtAddr a).isLt)
  obtain ⟨t, ht, hstore⟩ := store_completes i rs a o3 s
  have hpc : t.pc.toNat = (dtAddr a).val := by rw [hstore.pc, ← advancePc_toNat_eq ha, advancePc_pc]
  have hfetch : fetch t = some (s.readReg rs) := by rw [fetch_of_pc_eq hpc, hstore.result]
  exact ⟨t, (step_of_instr hr hf hd).trans ht, haddr ▸ hstore.result,
    step_of_instr (hstore.running.runState.trans hr) hfetch hj⟩

end Sys2Proof.Proofs

/-! PROOFS. The step (43_sequencer.md R130 to R137): that it is the spec's pseudocode, what it can do to the PC, how it
fails, and that every run halts. -/

namespace Sys2Proof.Proofs

open Sys2Proof.Machine

/-! ### The pseudocode of the ALU (R85) -/

theorem aluOpcode_toNat_le (op : AluOp) : (aluOpcode op).toNat ≤ 4 := by cases op <;> decide

/-- R85: on an operation's opcode the ALU block gives the operation's result. -/
theorem aluBlock_of_op (op : AluOp) (x y : Word) : aluBlock (aluOpcode op) x y = some (aluResult op x y) := by
  cases op with
  | add => rw [aluResult_add_eq_ofNat_mod]; rfl
  | sub => rw [aluResult_sub_eq_ofInt_mod]; rfl
  | and | or | xor => rfl

/-- R83: on the opcodes 5..15 the ALU block gives no result. -/
theorem aluBlock_of_illegal {o : BitVec 4} (h : 5 ≤ o.toNat) (x y : Word) : aluBlock o x y = none := by
  unfold aluBlock
  split
  any_goals omega
  rfl

theorem aluFinish_of_op {f : Fields} {op : AluOp} (ho : f.opcode = aluOpcode op) (fa x y : Word) (s : State) :
    aluFinish f fa x y s = s.writeReg f.operand1 (aluResult op x y) := by
  rw [aluFinish, ho, aluBlock_of_op]

theorem aluFinish_of_illegal {f : Fields} (ho : 5 ≤ f.opcode.toNat) (fa x y : Word) (s : State) :
    aluFinish f fa x y s = s.raise .errAluOpcode fa := by
  rw [aluFinish, aluBlock_of_illegal ho]

/-- R83: where both ALU checks fail, the order decides, and otherwise the check that fails. -/
theorem aluExecute_of_illegal (order : Config.AluCheckOrder) {f : Fields} (ho : 5 ≤ f.opcode.toNat) (fa : Word)
    (s : State) : aluExecute order f fa s = s.raise (illegalAluReason order f) fa := by
  cases order with
  | opcodeFirst =>
    rw [aluExecute, if_pos ⟨rfl, ho⟩]
    rfl
  | operandFirst =>
    rw [aluExecute, if_neg (by simp), aluFinish_of_illegal ho, aluFinish_of_illegal ho, illegalAluReason]
    rcases bit_cases f.iBit with hi | hi
    · by_cases ha : 7 < f.operand2.toNat <;> simp [hi, ha]
    · simp [hi]

/-- R85: on an operation's opcode the order of the checks does not matter, because one of them passes. -/
theorem aluExecute_of_op (order : Config.AluCheckOrder) {f : Fields} {op : AluOp} (ho : f.opcode = aluOpcode op)
    (fa : Word) (s : State) :
    aluExecute order f fa s =
      if f.iBit = 1#1 then s.writeReg f.operand1 (aluResult op (immediateOperand f.operand2) (s.readReg f.operand3))
      else if 7 < f.operand2.toNat then s.raise .errRegOperand fa
      else s.writeReg f.operand1 (aluResult op (s.readReg (f.operand2.setWidth 3)) (s.readReg f.operand3)) := by
  have hle : ¬ (order = .opcodeFirst ∧ 4 < f.opcode.toNat) := fun h => by
    have := aluOpcode_toNat_le op
    rw [← ho] at this
    omega
  rw [aluExecute, if_neg hle, aluFinish_of_op ho, aluFinish_of_op ho]
  rfl

/-- R85, R134: an ALU instruction's meaning is `ALU_Execute` on its fields. -/
theorem exec_eq_aluExecute (order : Config.AluCheckOrder) {f : Fields} {i : Instr} (h : aluInstr? f = some i)
    (s : State) : exec i s = .next (aluExecute order f s.pcWord s.advancePc) := by
  have hcase := aluInstr?_cases f
  rw [h] at hcase
  cases hcase with
  | immediate op ho hi =>
    rw [exec_immediateInstr_eq, aluExecute_of_op order ho, if_pos hi]
    rfl
  | register op ho hi =>
    rw [aluExecute_of_op order ho, if_neg (by simp [hi])]
    rcases Nat.lt_or_ge 7 f.operand2.toNat with ha | ha
    · rw [exec_registerInstr_of_gt op _ _ s ha, if_pos ha]
    · rw [exec_registerInstr_of_le op _ _ s ha, if_neg ha.not_gt]
      rfl

/-- R83, R134: the answer to an illegal ALU word is `ALU_Execute` on its fields. -/
theorem illegalAlu_eq_aluExecute (order : Config.AluCheckOrder) {f : Fields} (h : aluInstr? f = none) (s : State) :
    illegalAlu order f s = .next (aluExecute order f s.pcWord s.advancePc) := by
  have hcase := aluInstr?_cases f
  rw [h] at hcase
  cases hcase with
  | illegal ho => rw [aluExecute_of_illegal order ho, illegalAlu]

/-! ### The pseudocode of the Data-Transfer Unit (R113) -/

/-- R112: the bounds check passes. -/
theorem addrOf?_operand2 (a : Operand2) : addrOf? a.toNat = some (dtAddr a) := by
  rw [← dtAddress_toNat, addrOf?_dtAddress]

/-- R113, R134: LOAD's and STORE's meanings are `DT_Execute` on their fields. -/
theorem exec_eq_dtExecute {f : Fields} {i : Instr} (h : dtInstr? f = some i) (s : State) :
    exec i s = .next (dtExecute f s.pcWord s.advancePc) := by
  have hcase := dtInstr?_cases f
  rw [h] at hcase
  cases hcase with
  | load ho => simp [exec, execLoad_eq, dtExecute, addrOf?_operand2, ho]
  | store ho => simp [exec, execStore_eq, dtExecute, addrOf?_operand2, ho]

/-- R113, R134: the answer to an illegal Data-Transfer word is `DT_Execute` on its fields. -/
theorem illegalDt_eq_dtExecute {f : Fields} (h : dtInstr? f = none) (s : State) :
    illegalDt f s = .next (dtExecute f s.pcWord s.advancePc) := by
  have hcase := dtInstr?_cases f
  rw [h] at hcase
  cases hcase with
  | illegal hl hs =>
    rw [illegalDt_eq, dtExecute, addrOf?_operand2]
    dsimp only
    split
    · exact absurd (BitVec.eq_of_toNat_eq ‹_›) hl
    · exact absurd (BitVec.eq_of_toNat_eq ‹_›) hs
    · rfl

/-! ### The pseudocode of the step (R135) -/

/-- R131: `Step` at the end of memory. -/
theorem stepR135_of_no_fetch (order : Config.AluCheckOrder) {s : State} (h : addrOf? s.pc.toNat = none) :
    stepR135 order s = s.haltNormal .haltEndOfMemory s.pcWord := by
  simp only [stepR135, h]

/-- R132: `Step` at the sentinel. -/
theorem stepR135_of_sentinel (order : Config.AluCheckOrder) {s : State} {a : Addr} (h : addrOf? s.pc.toNat = some a)
    (hw : s.memRead a = Config.emptyWord) : stepR135 order s = s.haltNormal .haltSentinel s.pcWord := by
  simp [stepR135, h, hw, isEmpty]

/-- R133, R134: `Step` on any other word, which `t_bit` gives to one of the two units. -/
theorem stepR135_of_word (order : Config.AluCheckOrder) {s : State} {a : Addr} (h : addrOf? s.pc.toNat = some a)
    (hw : s.memRead a ≠ Config.emptyWord) :
    stepR135 order s =
      if (splitFields (s.memRead a)).tBit = 0#1 then aluExecute order (splitFields (s.memRead a)) s.pcWord s.advancePc
      else dtExecute (splitFields (s.memRead a)) s.pcWord s.advancePc := by
  simp [stepR135, h, hw, isEmpty]

/-- The sentinel's `t_bit` is 1. -/
theorem ne_emptyWord_of_tBit_zero {w : Word} (h : (splitFields w).tBit = 0#1) : w ≠ Config.emptyWord := by
  rintro rfl
  exact absurd h (by decide)

/-- Settles O42: the fetches agree, and the decoder's five answers are the branches of the pseudocode. -/
theorem stepRefinesThePseudocode : Obligations.StepRefinesThePseudocode := by
  intro s hr
  cases ha : addrOf? s.pc.toNat with
  | none =>
    have hf : fetch s = none := by rw [fetch, ha]; rfl
    rw [step_of_no_fetch hr hf, stepR135_of_no_fetch _ ha]
  | some a =>
    have hf : fetch s = some (s.memRead a) := fetch_of_pc_eq (addrOf?_eq_some.1 ha)
    have hcase := decode_cases (s.memRead a)
    generalize hd : decode (s.memRead a) = d at hcase
    cases hcase with
    | sentinel hw =>
      rw [step_of_instr hr hf hd, stepR135_of_sentinel _ ha hw]
      rfl
    | alu i ht hi =>
      rw [step_of_instr hr hf hd, stepR135_of_word _ ha (ne_emptyWord_of_tBit_zero ht), if_pos ht,
        exec_eq_aluExecute _ hi]
    | dt i hw ht hi =>
      rw [step_of_instr hr hf hd, stepR135_of_word _ ha hw, if_neg (by simp [ht]), exec_eq_dtExecute hi]
    | illegalAlu ht hi =>
      rw [step_of_illegal hr hf hd, stepR135_of_word _ ha (ne_emptyWord_of_tBit_zero ht), if_pos ht, illegalWord,
        illegalAlu_eq_aluExecute _ hi]
    | illegalDt hw ht hi =>
      rw [step_of_illegal hr hf hd, stepR135_of_word _ ha hw, if_neg (by simp [ht]), illegalWord,
        illegalDt_eq_dtExecute hi]

/-! ### The fetched instruction -/

/-- Settles O38: fetch, decode and execution, one after the other. -/
theorem stepRunsTheDecodedInstruction : Obligations.StepRunsTheDecodedInstruction :=
  ⟨fun _ _ => fetch_of_pc_eq, fun _ _ _ => step_of_instr⟩

/-- A word is its own table word. -/
theorem tableWord_toNat (w : Word) : tableWord 16 w.toNat = w := by
  rw [tableWord, Nat.mod_eq_of_lt w.isLt, BitVec.ofNat_toNat, BitVec.setWidth_eq]

/-- The placed word is the one fetched next. -/
theorem fetch_placeAtFetch (w : Word) (s : State) : fetch (placeAtFetch w s) = some w := by
  have hpc : (placeAtFetch w s).pc.toNat = (fetchPlace s).val := by
    have hlt : (fetchPlace s).val < 2 ^ 10 := (fetchPlace s).isLt.trans (by decide)
    rw [placeAtFetch_pc, BitVec.toNat_ofNat, Nat.mod_eq_of_lt hlt]
  rw [fetch_of_pc_eq hpc]
  exact congrArg some (Memory.read_write_same s.memory (fetchPlace s).val w)

/-- Settles O43: the placed word is fetched in a RUNNING state. -/
theorem placedWordIsTheNextInstruction : Obligations.PlacedWordIsTheNextInstruction := by
  intro s w i hd
  rw [State.withFetchWord, tableWord_toNat]
  exact step_of_instr (placeAtFetch_runState w s) (fetch_placeAtFetch w s) hd

/-! ### The PC and the errors -/

/-- Settles O39: the halts keep the PC, and everything else advances it from below 512. -/
theorem pcStaysOrGrowsByOne : Obligations.PcStaysOrGrowsByOne := by
  intro s t h
  obtain ⟨hr, heffect⟩ := step_next_cases h
  cases heffect with
  | register rd v hf | memory a v hf => exact .inr ⟨hf, pc_add_one_toNat hf, by simp [hr]⟩
  | error kind hk hf => exact .inr ⟨hf, pc_add_one_toNat hf, by simp⟩
  | sentinel hf hw => exact .inl ⟨rfl, rfl⟩
  | endOfMemory hf => exact .inl ⟨rfl, rfl⟩

/-- Settles O41: of all that a step can do, only a raise leads to HALTED_ERROR. -/
theorem executionErrorsArePrecise : Obligations.ExecutionErrorsArePrecise := by
  intro s t h ht
  obtain ⟨hr, heffect⟩ := step_next_cases h
  cases heffect with
  | register rd v hf | memory a v hf => simp [hr] at ht
  | error kind hk hf => exact ⟨raisesError_of_raise kind s, hk⟩
  | sentinel hf hw | endOfMemory hf => simp at ht

/-! ### Which instructions fail -/

/-- R68: a register form is well-formed where its operand2 names a register. -/
theorem wellFormed_registerInstr (op : AluOp) (rd : RegIdx) (ra : Operand2) (rb : RegIdx) :
    WellFormed (op.registerInstr rd ra rb) ↔ ra.toNat ≤ 7 := by
  cases op <;> exact decide_eq_true_iff

/-- R150, R152: how `i` ends in `s`, by whether its register operand exists. -/
def FailsExactlyWhenIllFormed (i : Instr) (s : State) : Prop :=
  (¬ WellFormed i → Completes i s (RaisesError .errRegOperand s))
    ∧ (WellFormed i → Completes i s fun t => t.runState = s.runState ∨ t.runState = .haltedNormal)

theorem registerInstr_fails (op : AluOp) (rd : RegIdx) (ra : Operand2) (rb : RegIdx) (s : State) :
    FailsExactlyWhenIllFormed (op.registerInstr rd ra rb) s := by
  rw [FailsExactlyWhenIllFormed, wellFormed_registerInstr]
  refine ⟨fun h => registerInstr_raises_of_gt op rd rb s (by omega), fun h => ?_⟩
  obtain ⟨t, ht, hwrites⟩ := registerInstr_completes_of_le op rd rb s h
  exact ⟨t, ht, .inl hwrites.running.runState⟩

/-- An instruction without a check does not fail. -/
theorem fails_of_wellFormed {i : Instr} {s : State} (hwf : WellFormed i)
    (h : Completes i s fun t => t.runState = s.runState ∨ t.runState = .haltedNormal) :
    FailsExactlyWhenIllFormed i s := ⟨fun hn => absurd hwf hn, fun _ => h⟩

theorem immediateInstr_fails (op : AluOp) (rd : RegIdx) (n : Operand2) (rb : RegIdx) (s : State) :
    FailsExactlyWhenIllFormed (op.immediateInstr rd n rb) s :=
  fails_of_wellFormed (by cases op <;> rfl) ⟨_, exec_immediateInstr_eq op rd n rb s, .inl rfl⟩

/-- Settles O40: the register forms have the check, and the others have none. -/
theorem instructionsFailExactlyOnAMissingRegister : Obligations.InstructionsFailExactlyOnAMissingRegister := by
  intro i s
  cases i with
  | add rd ra rb => exact registerInstr_fails .add rd ra rb s
  | addi rd n rb => exact immediateInstr_fails .add rd n rb s
  | sub rd ra rb => exact registerInstr_fails .sub rd ra rb s
  | subi rd n rb => exact immediateInstr_fails .sub rd n rb s
  | and rd ra rb => exact registerInstr_fails .and rd ra rb s
  | andi rd n rb => exact immediateInstr_fails .and rd n rb s
  | or rd ra rb => exact registerInstr_fails .or rd ra rb s
  | ori rd n rb => exact immediateInstr_fails .or rd n rb s
  | xor rd ra rb => exact registerInstr_fails .xor rd ra rb s
  | xori rd n rb => exact immediateInstr_fails .xor rd n rb s
  | load i rd a o3 => exact fails_of_wellFormed rfl ⟨_, execLoad_eq i rd a o3 s, .inl rfl⟩
  | store i rs a o3 => exact fails_of_wellFormed rfl ⟨_, execStore_eq i rs a o3 s, .inl rfl⟩
  | halt => exact fails_of_wellFormed rfl ⟨_, rfl, .inr rfl⟩

/-! ### Every run halts -/

/-- R133, R137: a step halts the run or moves the PC one nearer to 512. -/
theorem step_halts_or_advances {s : State} (hr : s.runState = .running) :
    ∃ t, step s = .next t ∧
      (t.Halted ∨ (s.pc.toNat < 512 ∧ t.runState = .running ∧ t.pc.toNat = s.pc.toNat + 1)) := by
  obtain ⟨t, ht, heffect⟩ := step_cases hr
  refine ⟨t, ht, ?_⟩
  cases heffect with
  | register rd v hf | memory a v hf => exact .inr ⟨hf, hr, pc_add_one_toNat hf⟩
  | error kind hk hf => exact .inl (.inr rfl)
  | sentinel hf hw | endOfMemory hf => exact .inl (.inl rfl)

/-- R137, by induction on how far the PC is from 512. -/
theorem run_halts_within (k : Nat) : ∀ s : State, s.runState = .running → s.pc.toNat + k = 512 →
    ∃ (n : Nat) (t : State), n ≤ k + 1 ∧ Runs n s t ∧ t.Halted := by
  induction k with
  | zero =>
    intro s hr hpc
    obtain ⟨t, ht, hhalt | ⟨hlt, -⟩⟩ := step_halts_or_advances hr
    · exact ⟨1, t, le_rfl, runs_succ.2 ⟨t, ht, runs_zero.2 rfl⟩, hhalt⟩
    · omega
  | succ k ih =>
    intro s hr hpc
    obtain ⟨t, ht, hhalt | ⟨-, htr, htpc⟩⟩ := step_halts_or_advances hr
    · exact ⟨1, t, by omega, runs_succ.2 ⟨t, ht, runs_zero.2 rfl⟩, hhalt⟩
    · obtain ⟨n, u, hn, hruns, hhalt⟩ := ih t htr (by omega)
      exact ⟨n + 1, u, by omega, runs_succ.2 ⟨t, ht, hruns⟩, hhalt⟩

/-- Settles O49: the distance from the PC to 512 bounds the run. -/
theorem everyRunHalts : Obligations.EveryRunHalts := by
  intro s hr hpc
  obtain ⟨n, t, hn, hruns, hhalt⟩ := run_halts_within (512 - s.pc.toNat) s hr (by omega)
  exact ⟨n, t, by omega, hruns, hhalt⟩

end Sys2Proof.Proofs

/-! PROOFS. The host port (70_reset_and_hazards.md R180 to R188): reset, the run states that accept an action, the load
of program and data, and what the host observes. -/

namespace Sys2Proof.Proofs

open Sys2Proof.Machine

/-! ### Which actions are accepted -/

/-- R186: reset is accepted in every run state. -/
@[simp] theorem hostAct_reset (s : State) : s.hostAct .reset = State.reset := rfl

/-- R186: outside LOAD every action but reset is refused. -/
theorem hostAct_of_not_load {s : State} {a : HostAction} (ha : a ≠ .reset) (hs : s.runState ≠ .load) :
    s.hostAct a = s := by
  cases a with
  | reset => exact absurd rfl ha
  | loadAndStart p d | sourceMissing => simp [State.hostAct, HostAction.acceptedIn, hs]

/-- R186: in LOAD every action is accepted. -/
theorem hostAct_of_load {s : State} (a : HostAction) (hs : s.runState = .load) : s.hostAct a = a.effect s := by
  cases a with
  | reset => rfl
  | loadAndStart p d | sourceMissing => simp [State.hostAct, HostAction.acceptedIn, hs]

theorem not_load_of_halted {s : State} (h : s.Halted) : s.runState ≠ .load := by
  rcases h with h | h <;> simp [h]

/-- Settles O1: each value of the reset table, and reset as an action. -/
theorem resetClearsAllState : Obligations.ResetClearsAllState :=
  ⟨fun _ => rfl, fun r => Vector.getElem_replicate r.isLt, rfl, rfl, rfl, rfl, hostAct_reset⟩

/-- Settles O2: a step is one of a RUNNING state, and the halted states refuse every action but reset. -/
theorem stepsOnlyWhileRunningAndOnlyResetLeavesAHalt : Obligations.StepsOnlyWhileRunningAndOnlyResetLeavesAHalt :=
  ⟨fun _ _ => running_of_step_next, fun s hs =>
    ⟨fun _ ht => not_running_of_halted hs (running_of_step_next ht),
     fun _ ha => hostAct_of_not_load ha (not_load_of_halted hs), hostAct_reset s⟩⟩

/-- Settles O3: one clause for each answer of `noStep?`. -/
theorem runningAlwaysStepsOthersAreStuck : Obligations.RunningAlwaysStepsOthersAreStuck := by
  refine fun s => ⟨fun hr => ?_, fun hr => ?_, fun hs => ?_⟩
  · obtain ⟨t, ht, -⟩ := step_cases hr
    exact ⟨t, ht⟩
  · simp [step, noStep?, hr]
  · rcases hs with hr | hr <;> simp [step, noStep?, hr]

/-- Settles O4: the refused actions, and `source_missing` accepted in LOAD. -/
theorem hostActionsOutsideTheirRunStatesChangeNothing : Obligations.HostActionsOutsideTheirRunStatesChangeNothing :=
  fun _ => ⟨fun _ => hostAct_of_not_load, hostAct_of_load .sourceMissing⟩

/-- Settles O8: the observation of each run state, none of which reads memory. -/
theorem hostObservesRegistersOnlyAfterANormalHalt : Obligations.HostObservesRegistersOnlyAfterANormalHalt := by
  refine ⟨fun s h => by simp [State.observe, State.regOut, h], fun s h => by simp [State.observe, State.regOut, h],
    fun s h => ?_, fun _ _ => rfl⟩
  cases hr : s.runState with
  | load | running => simp [State.observe, hr]
  | haltedNormal => exact absurd (.inl hr) h
  | haltedError => exact absurd (.inr hr) h

/-- Settles O9: the two tables of codes. -/
theorem statusCodesAreThoseOfTheTables : Obligations.StatusCodesAreThoseOfTheTables := ⟨rfl, rfl⟩

/-! ### Program load -/

/-- R181: a word that has a slot goes into it. -/
theorem loadProgram_cons_of_lt {k : Nat} (w : Word) (p : List Word) (s : State) (h : k < 512) :
    loadProgram k (w :: p) s = loadProgram (k + 1) p (s.memWrite ⟨k, h⟩ w) := by
  rw [loadProgram, addrOf?_of_lt h]

/-- R182: a word without a slot fails the load. -/
theorem loadProgram_cons_of_ge {k : Nat} (w : Word) (p : List Word) (s : State) (h : 512 ≤ k) :
    loadProgram k (w :: p) s = s.raise .errProgramTooLong (BitVec.ofNat 16 (k + 1)) := by
  rw [loadProgram, addrOf?_of_ge h]

/-- R181: a program that fits changes nothing but memory. -/
theorem loadProgram_of_fits {p : List Word} {k : Nat} (s : State) (h : k + p.length ≤ 512) :
    ∃ m : Memory, loadProgram k p s = { s with memory := m } := by
  induction p generalizing k s with
  | nil => exact ⟨s.memory, rfl⟩
  | cons w p ih =>
    rw [List.length_cons] at h
    rw [loadProgram_cons_of_lt w p s (by omega)]
    exact ih (s.memWrite _ w) (by omega)

/-- R181: a program that fits lies word for word from slot `k` on, and the slots before `k` are as they were. -/
theorem loadProgram_memRead {p : List Word} {k : Nat} (s : State) (h : k + p.length ≤ 512) (a : Addr) :
    (loadProgram k p s).memRead a = if a.val < k then s.memRead a else p.getD (a.val - k) (s.memRead a) := by
  induction p generalizing k s with
  | nil => simp [loadProgram]
  | cons w p ih =>
    rw [List.length_cons] at h
    have hk : k < 512 := by omega
    rw [loadProgram_cons_of_lt w p s hk, ih _ (by omega)]
    rcases Nat.lt_trichotomy a.val k with hlt | heq | hgt
    · have hne : a ≠ ⟨k, hk⟩ := Fin.ne_of_val_ne hlt.ne
      rw [if_pos (by omega), if_pos hlt, memWrite_memRead_other _ _ hne]
    · have ha : a = ⟨k, hk⟩ := Fin.ext heq
      simp [ha]
    · have hne : a ≠ ⟨k, hk⟩ := Fin.ne_of_val_ne hgt.ne'
      have hindex : a.val - k = a.val - (k + 1) + 1 := by omega
      rw [if_neg (by omega), if_neg (by omega), memWrite_memRead_other _ _ hne, hindex, List.getD_cons_succ]

/-- R182: a program that does not fit fails the load. -/
theorem loadProgram_fails {p : List Word} {k : Nat} (s : State) (hk : k ≤ 512) (h : 512 < k + p.length) :
    (loadProgram k p s).runState = .haltedError := by
  induction p generalizing k s with
  | nil => exact absurd h hk.not_gt
  | cons w p ih =>
    rw [List.length_cons] at h
    rcases Nat.lt_or_ge k 512 with hlt | hge
    · rw [loadProgram_cons_of_lt w p s hlt]
      exact ih _ hlt (by omega)
    · rw [loadProgram_cons_of_ge w p s hge]
      rfl

/-! ### Data load -/

/-- R183: a pair whose address lies in memory overwrites its slot. -/
theorem loadData_cons_of_lt (j : Nat) {a : Word} (v : Word) (d : List (Word × Word)) (s : State)
    (h : a.toNat < 512) :
    loadData j ((a, v) :: d) s = loadData (j + 1) d (s.memWrite ⟨a.toNat, h⟩ v) := by
  rw [loadData, addrOf?_of_lt h]

/-- R183: a pair whose address is 512 or more fails the load with its number. -/
theorem loadData_cons_of_ge (j : Nat) {a : Word} (v : Word) (d : List (Word × Word)) (s : State)
    (h : 512 ≤ a.toNat) :
    loadData j ((a, v) :: d) s = s.raise .errLoadAddress (entryInfo j) := by
  rw [loadData, addrOf?_of_ge h]

/-- R184: data that fits changes nothing but memory. -/
theorem loadData_of_fits {d : List (Word × Word)} (j : Nat) (s : State) (h : ∀ c ∈ d, c.1.toNat < 512) :
    ∃ m : Memory, loadData j d s = { s with memory := m } := by
  induction d generalizing j s with
  | nil => exact ⟨s.memory, rfl⟩
  | cons c d ih =>
    obtain ⟨a, v⟩ := c
    obtain ⟨ha, hd⟩ := List.forall_mem_cons.1 h
    rw [loadData_cons_of_lt j v d s ha]
    exact ih (j + 1) (s.memWrite _ v) hd

/-- R184: a slot holds the last pair's value for it, else what it held before. -/
theorem loadData_memRead {d : List (Word × Word)} (j : Nat) (s : State) (h : ∀ c ∈ d, c.1.toNat < 512) (b : Addr) :
    (loadData j d s).memRead b
      = ((d.reverse.find? fun c => c.1.toNat == b.val).map Prod.snd).getD (s.memRead b) := by
  induction d generalizing j s with
  | nil => rfl
  | cons c d ih =>
    obtain ⟨a, v⟩ := c
    obtain ⟨ha, hd⟩ := List.forall_mem_cons.1 h
    rw [loadData_cons_of_lt j v d s ha, ih _ _ hd, List.reverse_cons, List.find?_append]
    cases d.reverse.find? fun c => c.1.toNat == b.val with
    | some c => rfl
    | none =>
      by_cases hab : b = ⟨a.toNat, ha⟩
      · subst hab
        simp
      · have hne : a.toNat ≠ b.val := fun e => hab (Fin.ext e.symm)
        simp [hab, hne]

/-- R183 (decision D18): the pairs before the first bad address are applied, and the load fails at it. -/
theorem loadData_append_of_ge {d₁ : List (Word × Word)} (j : Nat) {a : Word} (v : Word) (d₂ : List (Word × Word))
    (s : State) (h : ∀ c ∈ d₁, c.1.toNat < 512) (ha : 512 ≤ a.toNat) :
    loadData j (d₁ ++ (a, v) :: d₂) s = (loadData j d₁ s).raise .errLoadAddress (entryInfo (j + d₁.length)) := by
  induction d₁ generalizing j s with
  | nil => exact loadData_cons_of_ge j v d₂ s ha
  | cons c d ih =>
    obtain ⟨b, w⟩ := c
    obtain ⟨hb, hd⟩ := List.forall_mem_cons.1 h
    rw [List.cons_append, loadData_cons_of_lt j w _ s hb, loadData_cons_of_lt j w _ s hb, ih _ _ hd, List.length_cons,
      Nat.add_right_comm, Nat.add_assoc]

/-! ### The whole load -/

/-- R182: a program that fails ends the load. -/
theorem loadAndStart_of_program_fails {p : List Word} (d : List (Word × Word)) {s : State}
    (h : (loadProgram 0 p s).runState = .haltedError) : loadAndStart p d s = loadProgram 0 p s :=
  if_neg (by simp [h])

/-- R181, R183, R185: after a program that fits comes the data, and then the start. -/
theorem loadAndStart_of_program_fits {p : List Word} (d : List (Word × Word)) {s : State} (hs : s.runState = .load)
    (hp : p.length ≤ 512) : loadAndStart p d s = start (loadData 1 d (loadProgram 0 p s)) := by
  obtain ⟨m, hm⟩ := loadProgram_of_fits (k := 0) s (by omega : 0 + p.length ≤ 512)
  exact if_pos (by simp [hm, hs])

/-- R185: a load that came through starts the run. -/
theorem start_of_load {s : State} (h : s.runState = .load) : start s = { s with runState := .running } := if_pos h

/-- R185: a load that failed starts nothing. -/
theorem start_of_error {s : State} (h : s.runState = .haltedError) : start s = s := if_neg (by simp [h])

/-- R181, R184: a program and data that fit change nothing but memory. -/
theorem load_of_fits {p : List Word} {d : List (Word × Word)} (s : State) (hp : p.length ≤ 512)
    (hd : ∀ c ∈ d, c.1.toNat < 512) : ∃ m : Memory, loadData 1 d (loadProgram 0 p s) = { s with memory := m } := by
  obtain ⟨m, hm⟩ := loadProgram_of_fits (k := 0) s (by omega : 0 + p.length ≤ 512)
  rw [hm]
  exact loadData_of_fits 1 _ hd

/-- R34, R181, R184: what a load that fits leaves in each word of reset's memory. -/
theorem load_memRead {p : List Word} {d : List (Word × Word)} (hp : p.length ≤ 512) (hd : ∀ c ∈ d, c.1.toNat < 512)
    (a : Addr) : (loadData 1 d (loadProgram 0 p State.reset)).memRead a
      = ((d.reverse.find? fun c => c.1.toNat == a.val).map Prod.snd).getD (p.getD a.val 0xFFFF#16) := by
  rw [loadData_memRead 1 _ hd, loadProgram_memRead (k := 0) _ (by omega), if_neg (Nat.not_lt_zero _)]
  rfl

/-- Reset's registers are 0, whatever else a state has. -/
theorem readReg_of_reset_regs {s : State} (h : s.regs = State.reset.regs) (r : RegIdx) : s.readReg r = 0#16 := by
  simp [State.readReg, h, State.reset]

/-- Settles O5: memory is as the two loads leave it, and everything else is reset's but the run state. -/
theorem loadWritesProgramThenDataAndStarts : Obligations.LoadWritesProgramThenDataAndStarts := by
  intro p d hp hd
  dsimp only
  rw [hostAct_of_load _ rfl, HostAction.effect, loadAndStart_of_program_fits d rfl hp]
  have hmem := load_memRead hp hd
  obtain ⟨m, hm⟩ := load_of_fits State.reset hp hd
  rw [hm] at hmem ⊢
  rw [start_of_load rfl]
  exact ⟨rfl, rfl, readReg_of_reset_regs rfl, rfl, rfl, hmem⟩

/-- Settles O6: the program does not fit, so program load does not end as it began, and it writes only memory. -/
theorem programTooLongFailsTheLoad : Obligations.ProgramTooLongFailsTheLoad := by
  intro p d hp
  dsimp only
  have herror : (loadProgram 0 p State.reset).runState = .haltedError :=
    loadProgram_fails State.reset (Nat.zero_le _) (by omega)
  rw [hostAct_of_load _ rfl, HostAction.effect, loadAndStart_of_program_fails d herror]
  have hframe := loadProgram_frame p 0 State.reset
  rcases loadProgram_record p 0 State.reset (Nat.zero_le _) with hsame | ⟨-, hreason, hinfo⟩
  · exact absurd (herror.symm.trans hsame.runState) (by decide)
  · exact ⟨herror, hreason, hinfo, hframe.pc, readReg_of_reset_regs hframe.regs⟩

/-- R183: an entry number that fits is the info. -/
theorem entryInfo_toNat {j : Nat} (h : j < 2 ^ 16) : (entryInfo j).toNat = j := by
  rw [entryInfo, if_pos h, BitVec.toNat_ofNat, Nat.mod_eq_of_lt h]

/-- The start of a run changes no word of memory. -/
@[simp] theorem start_memRead (s : State) (a : Addr) : (start s).memRead a = s.memRead a := by
  unfold start
  split <;> rfl

/-- Settles O7: the load is that of the earlier pairs, and then the raise. -/
theorem dataAddressOutOfMemoryFailsTheLoad : Obligations.DataAddressOutOfMemoryFailsTheLoad := by
  intro p d₁ d₂ a v hp hd ha
  dsimp only
  rw [hostAct_of_load _ rfl, hostAct_of_load _ rfl, HostAction.effect, HostAction.effect,
    loadAndStart_of_program_fits _ rfl hp, loadAndStart_of_program_fits _ rfl hp, loadData_append_of_ge 1 v d₂ _ hd ha,
    start_of_error (raise_runState _ _ _)]
  obtain ⟨m, hm⟩ := load_of_fits State.reset hp hd
  simp only [start_memRead, hm]
  exact ⟨rfl, rfl, fun h => (entryInfo_toNat (by omega)).trans (Nat.add_comm _ _), rfl, readReg_of_reset_regs rfl,
    fun _ => rfl⟩

/-- Settles O44: a program of one word is one write, at address 0, where reset's PC is. -/
theorem placedWordFromResetIsAProgramLoad : Obligations.PlacedWordFromResetIsAProgramLoad := by
  intro w
  rw [State.withFetchWord, tableWord_toNat]
  rfl

end Sys2Proof.Proofs

/-! PROOFS. The invariant (10_state.md R21 to R30, 60_exceptions.md R151 to R153): it holds at reset, every step and
every host action keep it, so every reachable state meets it. -/

namespace Sys2Proof.Proofs

open Sys2Proof.Machine

/-! ### What the run state says of the rest, one rule per run state -/

theorem eq_reset_of_load {s : State} (h : Invariant s) (hs : s.runState = .load) : s = State.reset := by
  simpa [RunStateOk, hs] using h.record

theorem runStateOk_of_running_iff {s : State} (hs : s.runState = .running) :
    RunStateOk s ↔ s.haltReason = .none ∧ s.haltInfo = 0#16 := by
  simp [RunStateOk, hs]

theorem runStateOk_of_haltedNormal_iff {s : State} (hs : s.runState = .haltedNormal) :
    RunStateOk s ↔ NormalHaltRecord s := by
  simp only [RunStateOk, hs]

theorem runStateOk_of_haltedError_iff {s : State} (hs : s.runState = .haltedError) :
    RunStateOk s ↔ LoadErrorRecord s ∨ ExecutionErrorRecord s := by
  simp only [RunStateOk, hs]

/-! ### Reset and the step -/

/-- Settles O45: reset is the LOAD state itself. -/
theorem invariantHoldsAtReset : Obligations.InvariantHoldsAtReset :=
  ⟨reset_memory_wf, Nat.zero_le _, rfl⟩

/-- R26: `halt_info` holds the whole PC. -/
theorem pcWord_toNat (s : State) : s.pcWord.toNat = s.pc.toNat := BitVec.toNat_setWidth_of_le (by decide)

/-- R26: from below 512 the PC advances to 512 at most. -/
theorem advancePc_le {s : State} (h : s.pc.toNat < 512) : s.advancePc.pc.toNat ≤ 512 := by
  rw [advancePc_pc, pc_add_one_toNat h]
  omega

/-- An instruction that goes on changes neither the run state nor the halt record. -/
theorem invariant_of_running {s t : State} (hs : Invariant s) (hr : s.runState = .running) (hkeeps : KeepsRunning s t)
    (hmem : t.memory.wf = true) (hpc : t.pc.toNat ≤ 512) : Invariant t := by
  obtain ⟨hreason, hinfo⟩ := (runStateOk_of_running_iff hr).1 hs.record
  exact ⟨hmem, hpc, (runStateOk_of_running_iff (hkeeps.runState.trans hr)).2
    ⟨hkeeps.haltReason.trans hreason, hkeeps.haltInfo.trans hinfo⟩⟩

/-- Settles O46: each of the step's effects either goes on with a clear record or writes the record of its halt. -/
theorem stepKeepsTheInvariant : Obligations.StepKeepsTheInvariant := by
  intro s t hs h
  obtain ⟨hr, heffect⟩ := step_next_cases h
  cases heffect with
  | register rd v hf => exact invariant_of_running hs hr ⟨rfl, rfl, rfl⟩ hs.memory (advancePc_le hf)
  | memory a v hf => exact invariant_of_running hs hr ⟨rfl, rfl, rfl⟩ (memWrite_wf _ v hs.memory) (advancePc_le hf)
  | error kind hk hf =>
    refine ⟨hs.memory, advancePc_le hf, (runStateOk_of_haltedError_iff rfl).2 (.inr ⟨hk, ?_⟩)⟩
    exact (congrArg (· + 1) (pcWord_toNat s)).trans (pc_add_one_toNat hf).symm
  | sentinel hf hw =>
    exact ⟨hs.memory, hs.pc, (runStateOk_of_haltedNormal_iff rfl).2 (.inl ⟨rfl, rfl, hf, hw⟩)⟩
  | endOfMemory hf =>
    exact ⟨hs.memory, hs.pc, (runStateOk_of_haltedNormal_iff rfl).2 (.inr ⟨rfl, rfl, hs.pc.antisymm hf⟩)⟩

/-! ### The host's actions -/

/-- R182 to R186: a load that fails from reset leaves PC and registers, so its record is that of a load error. -/
theorem invariant_of_load_error {t : State} (hframe : LoadingFrame State.reset t) (hr : t.runState = .haltedError)
    (hkind : (t.haltReason = .errSourceMissing ∧ t.haltInfo = 0#16)
      ∨ (t.haltReason = .errProgramTooLong ∧ t.haltInfo = 513#16) ∨ t.haltReason = .errLoadAddress) :
    Invariant t :=
  ⟨hframe.wf reset_memory_wf, hframe.pc ▸ Nat.zero_le _,
   (runStateOk_of_haltedError_iff hr).2 (.inl ⟨hframe.pc, hframe.regs, hkind⟩)⟩

/-- R185: a load that comes through from reset starts the run at PC 0 with a clear record. -/
theorem invariant_of_start {t : State} (hframe : LoadingFrame State.reset t) (hsame : SameRecord State.reset t) :
    Invariant (start t) := by
  rw [start_of_load hsame.runState]
  exact ⟨hframe.wf reset_memory_wf, hframe.pc ▸ Nat.zero_le _,
    (runStateOk_of_running_iff rfl).2 ⟨hsame.haltReason, hsame.haltInfo⟩⟩

/-- R181 to R185: load_and_start leads from reset to one of the three ends of a load. -/
theorem loadAndStart_invariant (p : List Word) (d : List (Word × Word)) :
    Invariant (loadAndStart p d State.reset) := by
  have hprogram := loadProgram_frame p 0 State.reset
  have hdata := hprogram.trans (loadData_frame d 1 _)
  rcases loadProgram_record p 0 State.reset (Nat.zero_le _) with hsame | ⟨hr, hrecord⟩
  · have hload : loadAndStart p d State.reset = start (loadData 1 d (loadProgram 0 p State.reset)) :=
      if_pos hsame.runState
    rw [hload]
    rcases loadData_record d 1 (loadProgram 0 p State.reset) with hsame' | ⟨hr, hreason⟩
    · exact invariant_of_start hdata ⟨hsame'.runState.trans hsame.runState,
        hsame'.haltReason.trans hsame.haltReason, hsame'.haltInfo.trans hsame.haltInfo⟩
    · rw [start_of_error hr]
      exact invariant_of_load_error hdata hr (.inr (.inr hreason))
  · rw [loadAndStart_of_program_fails d hr]
    exact invariant_of_load_error hprogram hr (.inr (.inl hrecord))

/-- R186: what an accepted action leads to from reset, which is the one LOAD state. -/
theorem effect_invariant (a : HostAction) : Invariant (a.effect State.reset) := by
  cases a with
  | reset => exact invariantHoldsAtReset
  | loadAndStart p d => exact loadAndStart_invariant p d
  | sourceMissing => exact invariant_of_load_error (.raise _ _ _) rfl (.inl ⟨rfl, rfl⟩)

/-- Settles O47: reset leads to reset, and any other action is accepted in LOAD only, where the state is reset. -/
theorem hostActionsKeepTheInvariant : Obligations.HostActionsKeepTheInvariant := by
  intro s a hs
  by_cases hload : s.runState = .load
  · rw [hostAct_of_load a hload, eq_reset_of_load hs hload]
    exact effect_invariant a
  · by_cases ha : a = .reset
    · rw [ha, hostAct_reset]
      exact invariantHoldsAtReset
    · rwa [hostAct_of_not_load ha hload]

/-- Settles O48: the induction over the run, of which O45, O46 and O47 are the three cases. -/
theorem reachableStatesMeetTheInvariant : Obligations.ReachableStatesMeetTheInvariant := by
  intro s h
  induction h with
  | reset => exact invariantHoldsAtReset
  | host a _ ih => exact hostActionsKeepTheInvariant _ a ih
  | step _ hstep ih => exact stepKeepsTheInvariant _ _ ih hstep

end Sys2Proof.Proofs
